-- ==== Sys2Proof/Word.lean ====
section
/-! DEFINITION. The machine's words: the widths of 00_scope.md R6. -/

namespace Sys2Proof

/-- A register value, an address or an instruction word (R6: XLEN and addresses are 32 bits). -/
abbrev Word := BitVec 32

/-- One memory cell's value (R6: the addressable unit is a byte of 8 bits). -/
abbrev Byte := BitVec 8

/-- Two bytes, the width LHU reads (R51). -/
abbrev Half := BitVec 16

/-- The number of a general register, a 5-bit field of the instruction (R21, R71). -/
abbrev RegIx := BitVec 5

end Sys2Proof
end

