-- ==== Sys2Proof/Syntax.lean ====
section
/-! DEFINITION. The 25 instructions of spec/opcode_table.json (00_scope.md R2), one constructor a row,
in the table's order. A register is its 5-bit number; a 12-bit or 20-bit immediate is the raw field
of the word (30_encoding.md R73, R74, R76); a branch or jump offset is the whole 13-bit or 21-bit
signed offset, whose bit 0 `WellFormed` requires to be 0 (R75, R77). Bits that selection ignores
(R82) are no operand. -/

namespace Sys2Proof

inductive Instr where
  /-- LUI rd, imm20 (R120). -/
  | lui (rd : RegIx) (imm : BitVec 20)
  /-- AUIPC rd, imm20 (R160). -/
  | auipc (rd : RegIx) (imm : BitVec 20)
  /-- JAL rd, offset (R170). -/
  | jal (rd : RegIx) (off : BitVec 21)
  /-- JALR rd, imm(rs1) (R140, R141). -/
  | jalr (rd rs1 : RegIx) (imm : BitVec 12)
  /-- BEQ rs1, rs2, offset (R151). -/
  | beq (rs1 rs2 : RegIx) (off : BitVec 13)
  /-- BNE rs1, rs2, offset (R152). -/
  | bne (rs1 rs2 : RegIx) (off : BitVec 13)
  /-- BLT rs1, rs2, offset (R153). -/
  | blt (rs1 rs2 : RegIx) (off : BitVec 13)
  /-- BGE rs1, rs2, offset (R154). -/
  | bge (rs1 rs2 : RegIx) (off : BitVec 13)
  /-- BLTU rs1, rs2, offset (R155). -/
  | bltu (rs1 rs2 : RegIx) (off : BitVec 13)
  /-- BGEU rs1, rs2, offset (R156). -/
  | bgeu (rs1 rs2 : RegIx) (off : BitVec 13)
  /-- LB rd, imm(rs1) (R131). -/
  | lb (rd rs1 : RegIx) (imm : BitVec 12)
  /-- LW rd, imm(rs1) (R132). -/
  | lw (rd rs1 : RegIx) (imm : BitVec 12)
  /-- LBU rd, imm(rs1) (R133). -/
  | lbu (rd rs1 : RegIx) (imm : BitVec 12)
  /-- LHU rd, imm(rs1) (R134). -/
  | lhu (rd rs1 : RegIx) (imm : BitVec 12)
  /-- SB rs2, imm(rs1): rs1 is the base, rs2 the data (R111). -/
  | sb (rs1 rs2 : RegIx) (imm : BitVec 12)
  /-- SW rs2, imm(rs1): rs1 is the base, rs2 the data (R112). -/
  | sw (rs1 rs2 : RegIx) (imm : BitVec 12)
  /-- ADDI rd, rs1, imm (R101). -/
  | addi (rd rs1 : RegIx) (imm : BitVec 12)
  /-- XORI rd, rs1, imm (R104). -/
  | xori (rd rs1 : RegIx) (imm : BitVec 12)
  /-- ORI rd, rs1, imm (R103). -/
  | ori (rd rs1 : RegIx) (imm : BitVec 12)
  /-- ANDI rd, rs1, imm (R102). -/
  | andi (rd rs1 : RegIx) (imm : BitVec 12)
  /-- SLLI rd, rs1, shamt (R105). -/
  | slli (rd rs1 : RegIx) (shamt : BitVec 5)
  /-- SRLI rd, rs1, shamt (R106). -/
  | srli (rd rs1 : RegIx) (shamt : BitVec 5)
  /-- SRAI rd, rs1, shamt (R107). -/
  | srai (rd rs1 : RegIx) (shamt : BitVec 5)
  /-- ADD rd, rs1, rs2 (R181). -/
  | add (rd rs1 rs2 : RegIx)
  /-- SUB rd, rs1, rs2 (R182). -/
  | sub (rd rs1 rs2 : RegIx)
  deriving DecidableEq, Repr

end Sys2Proof
end

