-- ==== Sys2Proof/Decode.lean ====
section
/-! DEFINITION. Decoding and encoding (30_encoding.md). Fields R71 and R72, immediates R73 to R78,
selection R82 and R83, unknown words R84. The decoder reads only the word (R86) and is total (R79);
a word with no semantics is rejected under the name of its group in R84. The encoder writes 0 in the
bits that selection ignores. -/

namespace Sys2Proof

/-! ## Fields of an instruction word -/

/-- `opcode = inst[6:0]` (R71). -/
def opcodeOf (w : Word) : BitVec 7 := w.extractLsb' 0 7
/-- `rd = inst[11:7]` (R71). -/
def rdOf (w : Word) : RegIx := w.extractLsb' 7 5
/-- `funct3 = inst[14:12]` (R71). -/
def funct3Of (w : Word) : BitVec 3 := w.extractLsb' 12 3
/-- `rs1 = inst[19:15]` (R71). -/
def rs1Of (w : Word) : RegIx := w.extractLsb' 15 5
/-- `rs2 = inst[24:20]` (R71). -/
def rs2Of (w : Word) : RegIx := w.extractLsb' 20 5
/-- `funct7 = inst[31:25]` (R71); only its bit 30 of the word takes part in selection (R82). -/
def funct7Of (w : Word) : BitVec 7 := w.extractLsb' 25 7
/-- `inst[30]`, which selects SUB and SRAI (R82). -/
def bit30Of (w : Word) : Bool := w.getLsbD 30
/-- The 12-bit I-type field `inst[31:20]` (R73). -/
def immIOf (w : Word) : BitVec 12 := w.extractLsb' 20 12
/-- The 12-bit S-type field (inst[31:25], inst[11:7]) (R74). -/
def immSOf (w : Word) : BitVec 12 := w.extractLsb' 25 7 ++ w.extractLsb' 7 5
/-- The 13-bit B-type offset (inst[31], inst[7], inst[30:25], inst[11:8], 0) (R75). -/
def immBOf (w : Word) : BitVec 13 :=
  w.extractLsb' 31 1 ++ w.extractLsb' 7 1 ++ w.extractLsb' 25 6 ++ w.extractLsb' 8 4 ++ 0#1
/-- The 20-bit U-type field `inst[31:12]` (R76). -/
def immUOf (w : Word) : BitVec 20 := w.extractLsb' 12 20
/-- The 21-bit J-type offset (inst[31], inst[19:12], inst[20], inst[30:21], 0) (R77). -/
def immJOf (w : Word) : BitVec 21 :=
  w.extractLsb' 31 1 ++ w.extractLsb' 12 8 ++ w.extractLsb' 20 1 ++ w.extractLsb' 21 10 ++ 0#1
/-- `shamt = inst[24:20]` (R78). -/
def shamtOf (w : Word) : BitVec 5 := w.extractLsb' 20 5

/-! ## Major opcodes (R80) -/

def opLui : BitVec 7 := 0b0110111#7
def opAuipc : BitVec 7 := 0b0010111#7
def opJal : BitVec 7 := 0b1101111#7
def opJalr : BitVec 7 := 0b1100111#7
def opBranch : BitVec 7 := 0b1100011#7
def opLoad : BitVec 7 := 0b0000011#7
def opStore : BitVec 7 := 0b0100011#7
def opOpImm : BitVec 7 := 0b0010011#7
def opOp : BitVec 7 := 0b0110011#7

/-! ## Decoding -/

/-- Why bytes are no instruction: the groups of R84, each by name, and bytes too few for a word. -/
inductive Reject where
  /-- Fewer than the 4 bytes every instruction has (R70). -/
  | tooFewBytes
  /-- `inst[6:0]` is none of the nine opcodes of R80. -/
  | unlistedOpcode
  /-- LOAD with funct3 001, 011, 110 or 111. -/
  | loadFunct3
  /-- STORE with funct3 other than 000 and 010. -/
  | storeFunct3
  /-- BRANCH with funct3 010 or 011. -/
  | branchFunct3
  /-- OP-IMM with funct3 010 or 011. -/
  | opImmFunct3
  /-- OP with funct3 other than 000. -/
  | opFunct3
  /-- JALR with funct3 other than 000 (R83). -/
  | jalrFunct3
  deriving DecidableEq, Repr

/-- What decoding a word gives: an instruction, or a named rejection (the UNKNOWN of R82). -/
inductive Decoded where
  | ok (i : Instr)
  | unknown (why : Reject)
  deriving DecidableEq, Repr

/-- `select` of R82 for the BRANCH opcode. -/
def decodeBranch (w : Word) : Decoded :=
  if funct3Of w = 0b000#3 then .ok (.beq (rs1Of w) (rs2Of w) (immBOf w))
  else if funct3Of w = 0b001#3 then .ok (.bne (rs1Of w) (rs2Of w) (immBOf w))
  else if funct3Of w = 0b100#3 then .ok (.blt (rs1Of w) (rs2Of w) (immBOf w))
  else if funct3Of w = 0b101#3 then .ok (.bge (rs1Of w) (rs2Of w) (immBOf w))
  else if funct3Of w = 0b110#3 then .ok (.bltu (rs1Of w) (rs2Of w) (immBOf w))
  else if funct3Of w = 0b111#3 then .ok (.bgeu (rs1Of w) (rs2Of w) (immBOf w))
  else .unknown .branchFunct3

/-- `select` of R82 for the LOAD opcode. -/
def decodeLoad (w : Word) : Decoded :=
  if funct3Of w = 0b000#3 then .ok (.lb (rdOf w) (rs1Of w) (immIOf w))
  else if funct3Of w = 0b010#3 then .ok (.lw (rdOf w) (rs1Of w) (immIOf w))
  else if funct3Of w = 0b100#3 then .ok (.lbu (rdOf w) (rs1Of w) (immIOf w))
  else if funct3Of w = 0b101#3 then .ok (.lhu (rdOf w) (rs1Of w) (immIOf w))
  else .unknown .loadFunct3

/-- `select` of R82 for the STORE opcode. -/
def decodeStore (w : Word) : Decoded :=
  if funct3Of w = 0b000#3 then .ok (.sb (rs1Of w) (rs2Of w) (immSOf w))
  else if funct3Of w = 0b010#3 then .ok (.sw (rs1Of w) (rs2Of w) (immSOf w))
  else .unknown .storeFunct3

/-- `select` of R82 for the OP-IMM opcode; SLLI ignores all of `inst[31:25]`. -/
def decodeOpImm (w : Word) : Decoded :=
  if funct3Of w = 0b000#3 then .ok (.addi (rdOf w) (rs1Of w) (immIOf w))
  else if funct3Of w = 0b001#3 then .ok (.slli (rdOf w) (rs1Of w) (shamtOf w))
  else if funct3Of w = 0b100#3 then .ok (.xori (rdOf w) (rs1Of w) (immIOf w))
  else if funct3Of w = 0b101#3 then
    if bit30Of w then .ok (.srai (rdOf w) (rs1Of w) (shamtOf w))
    else .ok (.srli (rdOf w) (rs1Of w) (shamtOf w))
  else if funct3Of w = 0b110#3 then .ok (.ori (rdOf w) (rs1Of w) (immIOf w))
  else if funct3Of w = 0b111#3 then .ok (.andi (rdOf w) (rs1Of w) (immIOf w))
  else .unknown .opImmFunct3

/-- `select` of R82 for the OP opcode; `inst[31]` and `inst[29:25]` are ignored. -/
def decodeOp (w : Word) : Decoded :=
  if funct3Of w = 0b000#3 then
    if bit30Of w then .ok (.sub (rdOf w) (rs1Of w) (rs2Of w))
    else .ok (.add (rdOf w) (rs1Of w) (rs2Of w))
  else .unknown .opFunct3

/-- `select(inst)` of R82, with the operands of R71 to R78. -/
def decodeWord (w : Word) : Decoded :=
  if opcodeOf w = opLui then .ok (.lui (rdOf w) (immUOf w))
  else if opcodeOf w = opAuipc then .ok (.auipc (rdOf w) (immUOf w))
  else if opcodeOf w = opJal then .ok (.jal (rdOf w) (immJOf w))
  else if opcodeOf w = opJalr then
    if funct3Of w = 0b000#3 then .ok (.jalr (rdOf w) (rs1Of w) (immIOf w))
    else .unknown .jalrFunct3
  else if opcodeOf w = opBranch then decodeBranch w
  else if opcodeOf w = opLoad then decodeLoad w
  else if opcodeOf w = opStore then decodeStore w
  else if opcodeOf w = opOpImm then decodeOpImm w
  else if opcodeOf w = opOp then decodeOp w
  else .unknown .unlistedOpcode

/-! ## Byte order (R43, R49, R70) -/

/-- Four bytes as a word, the first at the lowest address and least significant (R43). -/
def wordOfBytes (b0 b1 b2 b3 : Byte) : Word := b3 ++ b2 ++ b1 ++ b0

/-- Byte `k` of a word, `v[8k+7:8k]` (R46). -/
def byteOf (v : Word) (k : Nat) : Byte := v.extractLsb' (8 * k) 8

/-- A word's four bytes in the order they lie in memory (R46). -/
def bytesOf (v : Word) : List Byte := [byteOf v 0, byteOf v 1, byteOf v 2, byteOf v 3]

/-- Decode the instruction at the head of a byte sequence: every instruction is the next 4 bytes (R70). -/
def decode (bs : List Byte) : Decoded :=
  match bs with
  | b0 :: b1 :: b2 :: b3 :: _ => decodeWord (wordOfBytes b0 b1 b2 b3)
  | _ => .unknown .tooFewBytes

/-! ## Encoding, from the same tables (R72, R80, R81) -/

def encodeU (imm : BitVec 20) (rd : RegIx) (op : BitVec 7) : Word := imm ++ rd ++ op

def encodeJ (off : BitVec 21) (rd : RegIx) (op : BitVec 7) : Word :=
  off.extractLsb' 20 1 ++ off.extractLsb' 1 10 ++ off.extractLsb' 11 1 ++ off.extractLsb' 12 8
    ++ rd ++ op

def encodeI (imm : BitVec 12) (rs1 : RegIx) (f3 : BitVec 3) (rd : RegIx) (op : BitVec 7) : Word :=
  imm ++ rs1 ++ f3 ++ rd ++ op

def encodeS (imm : BitVec 12) (rs2 rs1 : RegIx) (f3 : BitVec 3) (op : BitVec 7) : Word :=
  imm.extractLsb' 5 7 ++ rs2 ++ rs1 ++ f3 ++ imm.extractLsb' 0 5 ++ op

def encodeB (off : BitVec 13) (rs2 rs1 : RegIx) (f3 : BitVec 3) (op : BitVec 7) : Word :=
  off.extractLsb' 12 1 ++ off.extractLsb' 5 6 ++ rs2 ++ rs1 ++ f3 ++ off.extractLsb' 1 4
    ++ off.extractLsb' 11 1 ++ op

def encodeR (f7 : BitVec 7) (rs2 rs1 : RegIx) (f3 : BitVec 3) (rd : RegIx) (op : BitVec 7) : Word :=
  f7 ++ rs2 ++ rs1 ++ f3 ++ rd ++ op

/-- The word of a well-formed instruction. -/
def encode (i : Instr) : Word :=
  match i with
  | .lui rd imm => encodeU imm rd opLui
  | .auipc rd imm => encodeU imm rd opAuipc
  | .jal rd off => encodeJ off rd opJal
  | .jalr rd rs1 imm => encodeI imm rs1 0b000#3 rd opJalr
  | .beq rs1 rs2 off => encodeB off rs2 rs1 0b000#3 opBranch
  | .bne rs1 rs2 off => encodeB off rs2 rs1 0b001#3 opBranch
  | .blt rs1 rs2 off => encodeB off rs2 rs1 0b100#3 opBranch
  | .bge rs1 rs2 off => encodeB off rs2 rs1 0b101#3 opBranch
  | .bltu rs1 rs2 off => encodeB off rs2 rs1 0b110#3 opBranch
  | .bgeu rs1 rs2 off => encodeB off rs2 rs1 0b111#3 opBranch
  | .lb rd rs1 imm => encodeI imm rs1 0b000#3 rd opLoad
  | .lw rd rs1 imm => encodeI imm rs1 0b010#3 rd opLoad
  | .lbu rd rs1 imm => encodeI imm rs1 0b100#3 rd opLoad
  | .lhu rd rs1 imm => encodeI imm rs1 0b101#3 rd opLoad
  | .sb rs1 rs2 imm => encodeS imm rs2 rs1 0b000#3 opStore
  | .sw rs1 rs2 imm => encodeS imm rs2 rs1 0b010#3 opStore
  | .addi rd rs1 imm => encodeI imm rs1 0b000#3 rd opOpImm
  | .xori rd rs1 imm => encodeI imm rs1 0b100#3 rd opOpImm
  | .ori rd rs1 imm => encodeI imm rs1 0b110#3 rd opOpImm
  | .andi rd rs1 imm => encodeI imm rs1 0b111#3 rd opOpImm
  | .slli rd rs1 shamt => encodeR 0b0000000#7 shamt rs1 0b001#3 rd opOpImm
  | .srli rd rs1 shamt => encodeR 0b0000000#7 shamt rs1 0b101#3 rd opOpImm
  | .srai rd rs1 shamt => encodeR 0b0100000#7 shamt rs1 0b101#3 rd opOpImm
  | .add rd rs1 rs2 => encodeR 0b0000000#7 rs2 rs1 0b000#3 rd opOp
  | .sub rd rs1 rs2 => encodeR 0b0100000#7 rs2 rs1 0b000#3 rd opOp

/-! ## The opcode table's own numbering -/

/-- The word whose low `nbits` bits are those of `w` and whose other bits are 0. Every row of
spec/opcode_table.json has 32 bits. -/
def tableWord (nbits w : Nat) : Word := BitVec.ofNat 32 (w % 2 ^ nbits)

/-- What the decoder reads from the table's word `w`, laid out as its bytes lie in memory. -/
def decodeTableWord (nbits w : Nat) : Option Instr :=
  match decode (bytesOf (tableWord nbits w)) with
  | .ok i => some i
  | .unknown _ => none

end Sys2Proof
end

