-- ==== Sys2Proof/Config.lean ====
section
/-! DEFINITION. What is fixed for this hardware and is not part of its state (00_scope.md R6).
`MEM_CAPACITY` is the one open parameter (R7); it is carried by `State.memCapacity`, so that every
statement about a state holds for every value of it (log entry 1). There is no free value: no
instruction of this hardware leaves a value undefined. -/

namespace Sys2Proof.Config

/-- The number of byte addresses, 2^32 (R40). -/
abbrev addressSpace : Nat := 4294967296

/-- Where the first instruction is fetched after the load sequence (R251). -/
def resetVector : Word := 0#32

/-- The value of the address-0 sentinel cell of an empty image (R250, D7). -/
def sentinelByte : Byte := 0#8

/-- The `MEM_CAPACITY` of `State.reset`: `none` is unbounded, a legal value (R62).
DESIGN CHOICE (log entry 1): the spec leaves the parameter open; no statement rests on this value. -/
def resetCapacity : Option Nat := none

end Sys2Proof.Config
end

