-- ==== Sys2Proof/Machine/State.lean ====
section
/-! DEFINITION. The architectural state, the tuple of 10_state.md R20, as plain data; the reasons a
step can stop; the state after the load sequence of an empty image. -/

namespace Sys2Proof.Machine

/-- The store: a list of (address, byte) pairs in one canonical form (`Memory.wf` in Machine/Ops.lean).
An address that is not listed is unbacked (R27, R41): it holds no cell and reads as no value. -/
abbrev Memory := List Host.Cell

/-- A fault reason with its diagnostic record (R201). No rule reads the record. -/
inductive FaultRecord where
  /-- An absent cell was read (R202): `pc` of the instruction, `inst` if the fault was in a load and
  none for a fetch, `addr` the first unbacked byte address. -/
  | segmentationFault (pc : Word) (inst : Option Word) (addr : Word)
  /-- A byte below the code boundary was written in the cycle before (R203): `pc` at the checkpoint. -/
  | illegalWrite (pc : Word)
  /-- A cell was needed with none left (R204): `pc` and `inst` of the store (no `inst` from the load
  sequence, R252), `addr` the byte address that needed a cell. -/
  | outOfCapacity (pc : Word) (inst : Option Word) (addr : Word)
  /-- A word with no semantics (R205): `pc`, the raw word, the decoded opcode `inst[6:0]`. -/
  | unknownInstruction (pc inst : Word) (opcode : BitVec 7)
  deriving DecidableEq, Repr

/-- The run state (R30). `halted` carries the exit status (R141). -/
inductive RunState where
  | running
  | halted (status : Word)
  | faulted (record : FaultRecord)
  deriving DecidableEq, Repr

/-- The complete state of the CORE (R20). -/
structure State where
  /-- x0 to x31 (R21, R22). Slot 0 is never written; `State.readReg` reads x0 as 0. -/
  regs : Vector Word 32
  /-- The address of the next instruction to fetch (R24). -/
  pc : Word
  /-- The cells (R27). -/
  mem : Memory
  /-- The number of cells (R31). -/
  fill : Nat
  /-- The address one past the last loaded byte, 0 to 2^32 (R28). -/
  codeBoundary : Nat
  /-- The Fault Flag (R29). -/
  pendingFault : Bool
  /-- The run state (R30). -/
  run : RunState
  /-- `MEM_CAPACITY`, `none` for unbounded (R62): the parameter a model takes as an argument (R7),
  carried here; no step changes it (log entry 1). -/
  memCapacity : Option Nat
  deriving DecidableEq, Repr

/-- Why `step` answers no next state although the spec gives the instruction set its meaning: the run
has ended and no cycle is enabled (R30, R90). What ended the run, and the state it left, is in the
state itself (log entry 3). -/
inductive Fault where
  /-- Raised by `cycle` when `run` is `Halted(status)`. Safe: the spec enables no step here. -/
  | runHalted (status : Word)
  /-- Raised by `cycle` when `run` is `Faulted(record)`. Safe: the spec enables no step here. -/
  | runFaulted (record : FaultRecord)
  deriving DecidableEq, Repr

/-- Why the model gives no meaning. -/
inductive Refusal where
  /-- Raised by an arm of `exec` whose instruction has no meaning yet; no arm does so. Safe: it stops. -/
  | notModelled (mnemonic : String)
  /-- Raised by `load` on an image of more than 2^32 bytes: "no such image is loaded"
  (93_implementation_defined.md, R252). Safe: it stops. -/
  | imageTooLong
  deriving DecidableEq, Repr

/-- The machine right after reset: the load sequence of R250 with the empty image, before any image is
given. All registers and pc are 0, memory holds the sentinel cell only, fill counts it, the boundary is
the image length 0. `Machine.load` is the load sequence for any image and capacity. The capacity here is
unbounded, DESIGN CHOICE, log entry 1. -/
def State.reset : State where
  regs := Vector.replicate 32 0#32
  pc := Config.resetVector
  mem := [(0, Config.sentinelByte)]
  fill := 1
  codeBoundary := 0
  pendingFault := false
  run := .running
  memCapacity := Config.resetCapacity

end Sys2Proof.Machine
end

