-- ==== Sys2Proof/Machine/Flags.lean ====
section
/-! DEFINITION. The one flag of the machine, `pending_fault` (10_state.md R29), and the comparisons the
branches make. There are no condition codes (R32): a branch compares two registers directly. -/

namespace Sys2Proof.Machine

/-- `a < code_boundary`, unsigned, with `a` as a natural number (R45). -/
def State.belowBoundary (s : State) (a : Word) : Bool := decide (a.toNat < s.codeBoundary)

/-- The flag after a byte write at `a` (R29, R45): set below the boundary, else as it was. -/
def State.flagAfterWrite (s : State) (a : Word) : Bool := s.pendingFault || s.belowBoundary a

/-- `x[rs1] = x[rs2]`, all 32 bits (R151). -/
def condEq (a b : Word) : Bool := a == b
/-- `x[rs1] != x[rs2]` (R152). -/
def condNe (a b : Word) : Bool := !(a == b)
/-- `x[rs1] <s x[rs2]` (R153). -/
def condLt (a b : Word) : Bool := BitVec.slt a b
/-- `not (x[rs1] <s x[rs2])` (R154). -/
def condGe (a b : Word) : Bool := !BitVec.slt a b
/-- `x[rs1] <u x[rs2]` (R155). -/
def condLtu (a b : Word) : Bool := BitVec.ult a b
/-- `not (x[rs1] <u x[rs2])` (R156). -/
def condGeu (a b : Word) : Bool := !BitVec.ult a b

end Sys2Proof.Machine
end

