-- ==== Sys2Proof/Machine/Ops.lean ====
section
/-! DEFINITION. The operations every meaning is made of: the register file, the pc, the memory arbiter
(20_memory.md), and the entry into a terminal run state (60_exceptions.md R209). -/

namespace Sys2Proof.Machine

/-! ## The store of cells -/

/-- What an address with no cell reads as: nothing (R27, R42). -/
def Memory.unlisted : Option Byte := none

/-- The cell at address `a`, if one exists. -/
def Memory.read (m : Memory) (a : Nat) : Option Byte :=
  match m with
  | [] => Memory.unlisted
  | (k, b) :: rest => if k = a then some b else Memory.read rest a

/-- Update the cell at `a` in place, or create it (R41). -/
def Memory.write (m : Memory) (a : Nat) (v : Byte) : Memory :=
  match m with
  | [] => [(a, v)]
  | (k, b) :: rest =>
    if a < k then (a, v) :: (k, b) :: rest
    else if a = k then (a, v) :: rest
    else (k, b) :: Memory.write rest a v

/-- The addresses rise strictly from `lo` on and stay inside the address space. -/
def Memory.risesFrom (lo : Nat) (m : Memory) : Bool :=
  match m with
  | [] => true
  | (k, _) :: rest =>
    decide (lo ≤ k) && decide (k < Config.addressSpace) && Memory.risesFrom (k + 1) rest

/-- The canonical form: addresses strictly rising, each of the 2^32 (R27, R40). No entry can equal what
an unlisted address reads as, since that is no value. -/
def Memory.wf (m : Memory) : Bool := m.risesFrom 0

/-! ## Registers and pc -/

/-- `x[i]` (R11, R21): x0 reads as 0. -/
def State.readReg (s : State) (r : RegIx) : Word :=
  if r = 0#5 then 0#32 else s.regs[r.toNat]'r.isLt

/-- `x[i] <- v` (R11, R21): a write to x0 is discarded. -/
def State.writeReg (s : State) (r : RegIx) (v : Word) : State :=
  if r = 0#5 then s else { s with regs := s.regs.set r.toNat v r.isLt }

/-- The address after this instruction, modulo 2^32 (R25, R96). -/
def State.nextPc (s : State) : Word := s.pc + 4#32

/-- The default advance (R96). -/
def State.advance (s : State) : State := { s with pc := s.nextPc }

/-- `pc <- target`, which takes the place of the default advance (R11). -/
def State.jump (s : State) (target : Word) : State := { s with pc := target }

/-! ## Ends of a run -/

/-- `raise` (R13, R209): the run state becomes `Faulted`, nothing else changes. There is no return
from it (R211). -/
def State.raise (s : State) (r : FaultRecord) : State := { s with run := .faulted r }

/-- `halt` (R13, R141, R209): the run state becomes `Halted`, nothing else changes. -/
def State.halt (s : State) (status : Word) : State := { s with run := .halted status }

/-! ## Reads (R42 to R44) -/

/-- What a read answers: the value, or the first address that holds no cell. -/
inductive ReadResult (α : Type) where
  | ok (v : α)
  | absent (addr : Word)
  deriving DecidableEq, Repr

/-- Widen or otherwise map the value of a read. -/
def ReadResult.map {α β : Type} (f : α → β) (r : ReadResult α) : ReadResult β :=
  match r with
  | .ok v => .ok (f v)
  | .absent a => .absent a

/-- The cell at a 32-bit address, if one exists. -/
def State.byteAt (s : State) (a : Word) : Option Byte := s.mem.read a.toNat

/-- `read8(a)` (R42), which is `MemRead(a, 1)` (R44). -/
def State.read8 (s : State) (a : Word) : ReadResult Byte :=
  match s.byteAt a with
  | some b => .ok b
  | none => .absent a

/-- `MemRead(a, 2)` (R44): bytes `a` and `a+1` modulo 2^32, little-endian, the first absent one reported. -/
def State.read16 (s : State) (a : Word) : ReadResult Half :=
  match s.read8 a with
  | .absent e => .absent e
  | .ok b0 =>
    match s.read8 (a + 1#32) with
    | .absent e => .absent e
    | .ok b1 => .ok (b1 ++ b0)

/-- `MemRead(a, 4)` (R44): two halves, the lower addresses first, `a + k` modulo 2^32. -/
def State.read32 (s : State) (a : Word) : ReadResult Word :=
  match s.read16 a with
  | .absent e => .absent e
  | .ok h0 =>
    match s.read16 (a + 2#32) with
    | .absent e => .absent e
    | .ok h1 => .ok (h1 ++ h0)

/-- The fetch of R70 and R90: `MemRead(pc, 4)`. -/
def State.fetch (s : State) : ReadResult Word := s.read32 s.pc

/-! ## Writes (R45 to R47) -/

/-- `fill = MEM_CAPACITY`, in the form of R31: one more cell would exceed the capacity. The two agree
wherever `fill` does not exceed it, which every step keeps (log entry 4). -/
def State.atCapacity (s : State) : Bool :=
  match s.memCapacity with
  | none => false
  | some c => decide (c ≤ s.fill)

/-- What a write answers: the state after it, or, when a byte needed a cell and none was left, the state
with the earlier bytes written and that byte's address (R45, R46). -/
inductive WriteResult where
  | stored (s : State)
  | full (s : State) (addr : Word)
  deriving DecidableEq, Repr

/-- `write8(a, v)` (R45). -/
def State.write8 (s : State) (a : Word) (v : Byte) : WriteResult :=
  let s := { s with pendingFault := s.flagAfterWrite a }
  match s.byteAt a with
  | some _ => .stored { s with mem := s.mem.write a.toNat v }
  | none =>
    if s.atCapacity then .full s a
    else .stored { s with mem := s.mem.write a.toNat v, fill := s.fill + 1 }

/-- One `write8` after another at rising addresses modulo 2^32, stopping where one finds no cell (R46). -/
def State.writeBytes (s : State) (a : Word) (bs : List Byte) : WriteResult :=
  match bs with
  | [] => .stored s
  | b :: rest =>
    match s.write8 a b with
    | .full t e => .full t e
    | .stored t => t.writeBytes (a + 1#32) rest

/-- `MemWrite(a, 1, v) = write8(a, v[7:0])` (R47). -/
def State.memWrite8 (s : State) (a : Word) (v : Word) : WriteResult := s.write8 a (byteOf v 0)

/-- `MemWrite(a, 4, v) = write32(a, v)` (R46, R47). -/
def State.memWrite32 (s : State) (a : Word) (v : Word) : WriteResult := s.writeBytes a (bytesOf v)

/-! ## The load primitive (R48) -/

/-- Put one byte at `a` without the boundary test and without the capacity test, counting a new cell
(R48: "bypasses the code-boundary check"). No instruction reaches it. -/
def State.place8 (s : State) (a : Word) (v : Byte) : State :=
  match s.byteAt a with
  | some _ => { s with mem := s.mem.write a.toNat v }
  | none => { s with mem := s.mem.write a.toNat v, fill := s.fill + 1 }

/-- `place8` at rising addresses modulo 2^32. -/
def State.placeBytes (s : State) (a : Word) (bs : List Byte) : State :=
  match bs with
  | [] => s
  | b :: rest => (s.place8 a b).placeBytes (a + 1#32) rest

/-- The program from outside, one word at the pc, and a machine that runs it in its next cycle: run state
Running and no pending fault, which the fetch needs (R90). The boundary is left as it is (log entry 2). -/
def State.placeAtPc (s : State) (w : Word) : State :=
  { s.placeBytes s.pc (bytesOf w) with pendingFault := false, run := .running }

end Sys2Proof.Machine
end

