-- ==== Sys2Proof/Machine/Operands.lean ====
section
/-! DEFINITION. Operand forms (30_encoding.md R73 to R78) and the ways a meaning ends: a register result,
a load, a store, a branch. -/

namespace Sys2Proof.Machine

/-! ## Immediates as 32-bit values -/

/-- `imm_I`, the 12-bit field sign-extended (R73). -/
def immI (f : BitVec 12) : Word := f.signExtend 32
/-- `imm_S`, the 12-bit field sign-extended (R74). -/
def immS (f : BitVec 12) : Word := f.signExtend 32
/-- `imm_B`, the 13-bit offset sign-extended (R75). -/
def immB (off : BitVec 13) : Word := off.signExtend 32
/-- `imm_U`, the 20-bit field in bits 31..12 over 12 zero bits (R76). -/
def immU (f : BitVec 20) : Word := f ++ 0#12
/-- `imm_J`, the 21-bit offset sign-extended (R77). -/
def immJ (off : BitVec 21) : Word := off.signExtend 32

/-! ## Effective addresses, modulo 2^32 -/

/-- `ea = x[rs1] + imm_I` (R130). -/
def State.loadAddr (s : State) (rs1 : RegIx) (imm : BitVec 12) : Word := s.readReg rs1 + immI imm
/-- `ea = x[rs1] + imm_S` (R110). -/
def State.storeAddr (s : State) (rs1 : RegIx) (imm : BitVec 12) : Word := s.readReg rs1 + immS imm

/-! ## Shifts (R9): `n` is 0 to 31 -/

/-- `v << n`. -/
def shiftLeft (v : Word) (n : BitVec 5) : Word := v <<< n.toNat
/-- `v >>u n`. -/
def shiftRightLogical (v : Word) (n : BitVec 5) : Word := v >>> n.toNat
/-- `v >>s n`. -/
def shiftRightArith (v : Word) (n : BitVec 5) : Word := v.sshiftRight n.toNat

/-! ## How a meaning ends -/

/-- The outcome of a meaning. -/
abbrev Result := Host.Outcome State Fault Refusal

/-- `x[rd] <- v; pc <- pc + 4`. -/
def finishReg (rd : RegIx) (v : Word) (s : State) : Result := .next (s.writeReg rd v).advance

/-- The end of a load (R130): the value to rd and the default advance, or SegmentationFault with the
first absent address and no other change. `inst` is the load's word, for the record (R201). -/
def finishLoad (inst : Word) (rd : RegIx) (r : ReadResult Word) (s : State) : Result :=
  match r with
  | .ok v => finishReg rd v s
  | .absent a => .next (s.raise (.segmentationFault s.pc (some inst) a))

/-- The end of a store (R110): the default advance, or OutOfCapacity with the earlier bytes written and
the pc not advanced. `inst` is the store's word, for the record (R201). -/
def finishStore (inst : Word) (r : WriteResult) : Result :=
  match r with
  | .stored t => .next t.advance
  | .full t a => .next (t.raise (.outOfCapacity t.pc (some inst) a))

/-- The end of a branch (R150): the target relative to the branch's own address, or the default advance. -/
def finishBranch (taken : Bool) (off : BitVec 13) (s : State) : Result :=
  if taken then .next (s.jump (s.pc + immB off)) else .next s.advance

end Sys2Proof.Machine
end

