-- ==== Sys2Proof/Machine/Branch.lean ====
section
/-! DEFINITION. The BRANCH instructions (45_branch.md). -/

namespace Sys2Proof.Machine

/-- R151. -/
def execBeq (rs1 rs2 : RegIx) (off : BitVec 13) (s : State) : Host.Outcome State Fault Refusal :=
  finishBranch (condEq (s.readReg rs1) (s.readReg rs2)) off s

/-- R152. -/
def execBne (rs1 rs2 : RegIx) (off : BitVec 13) (s : State) : Host.Outcome State Fault Refusal :=
  finishBranch (condNe (s.readReg rs1) (s.readReg rs2)) off s

/-- R153. -/
def execBlt (rs1 rs2 : RegIx) (off : BitVec 13) (s : State) : Host.Outcome State Fault Refusal :=
  finishBranch (condLt (s.readReg rs1) (s.readReg rs2)) off s

/-- R154. -/
def execBge (rs1 rs2 : RegIx) (off : BitVec 13) (s : State) : Host.Outcome State Fault Refusal :=
  finishBranch (condGe (s.readReg rs1) (s.readReg rs2)) off s

/-- R155. -/
def execBltu (rs1 rs2 : RegIx) (off : BitVec 13) (s : State) : Host.Outcome State Fault Refusal :=
  finishBranch (condLtu (s.readReg rs1) (s.readReg rs2)) off s

/-- R156. -/
def execBgeu (rs1 rs2 : RegIx) (off : BitVec 13) (s : State) : Host.Outcome State Fault Refusal :=
  finishBranch (condGeu (s.readReg rs1) (s.readReg rs2)) off s

end Sys2Proof.Machine
end

