-- ==== Sys2Proof/Machine/Jump.lean ====
section
/-! DEFINITION. JAL (47_jal.md), JALR and the exit sentinel (44_jalr.md). -/

namespace Sys2Proof.Machine

/-- R170: link, then jump relative to the JAL's own address. -/
def execJal (rd : RegIx) (off : BitVec 21) (s : State) : Host.Outcome State Fault Refusal :=
  .next ((s.writeReg rd s.nextPc).jump (s.pc + immJ off))

/-- `(base + imm_I) & ~1` (R140). -/
def State.jalrTarget (s : State) (rs1 : RegIx) (imm : BitVec 12) : Word :=
  (s.readReg rs1 + immI imm) &&& 0xFFFFFFFE#32

/-- The four conditions of the exit sentinel (R140, R141). -/
def State.isSentinel (s : State) (rd rs1 : RegIx) (imm : BitVec 12) : Bool :=
  rd == 0#5 && immI imm == 0#32 && s.readReg rs1 == 0#32 && s.jalrTarget rs1 imm == 0#32

/-- R140, R141: the sentinel halts with x10 as exit status (D1); else link, with the target computed from
the old x[rs1], and jump. -/
def execJalr (rd rs1 : RegIx) (imm : BitVec 12) (s : State) : Host.Outcome State Fault Refusal :=
  if s.isSentinel rd rs1 imm then .next (s.halt (s.readReg 10#5))
  else .next ((s.writeReg rd s.nextPc).jump (s.jalrTarget rs1 imm))

end Sys2Proof.Machine
end

