-- ==== Sys2Proof/Machine/Load.lean ====
section
/-! DEFINITION. The LOAD instructions (43_load.md). A load's word has no ignored bit, so the word in a
fault record is the instruction's encoding (log entry 6). -/

namespace Sys2Proof.Machine

/-- R131: one byte, sign-extended. -/
def execLb (rd rs1 : RegIx) (imm : BitVec 12) (s : State) : Host.Outcome State Fault Refusal :=
  finishLoad (encode (.lb rd rs1 imm)) rd
    ((s.read8 (s.loadAddr rs1 imm)).map fun b => b.signExtend 32) s

/-- R132: four bytes. -/
def execLw (rd rs1 : RegIx) (imm : BitVec 12) (s : State) : Host.Outcome State Fault Refusal :=
  finishLoad (encode (.lw rd rs1 imm)) rd (s.read32 (s.loadAddr rs1 imm)) s

/-- R133: one byte, zero-extended. -/
def execLbu (rd rs1 : RegIx) (imm : BitVec 12) (s : State) : Host.Outcome State Fault Refusal :=
  finishLoad (encode (.lbu rd rs1 imm)) rd
    ((s.read8 (s.loadAddr rs1 imm)).map fun b => b.setWidth 32) s

/-- R134: two bytes, zero-extended. -/
def execLhu (rd rs1 : RegIx) (imm : BitVec 12) (s : State) : Host.Outcome State Fault Refusal :=
  finishLoad (encode (.lhu rd rs1 imm)) rd
    ((s.read16 (s.loadAddr rs1 imm)).map fun h => h.setWidth 32) s

end Sys2Proof.Machine
end

