-- ==== Sys2Proof/Machine/OpImm.lean ====
section
/-! DEFINITION. The OP-IMM instructions (40_op_imm.md). The shifts follow 90_conflicts.md C1 and C2:
true left shift, true logical right shift. -/

namespace Sys2Proof.Machine

/-- R101. -/
def execAddi (rd rs1 : RegIx) (imm : BitVec 12) (s : State) : Host.Outcome State Fault Refusal :=
  finishReg rd (s.readReg rs1 + immI imm) s

/-- R104. -/
def execXori (rd rs1 : RegIx) (imm : BitVec 12) (s : State) : Host.Outcome State Fault Refusal :=
  finishReg rd (s.readReg rs1 ^^^ immI imm) s

/-- R103. -/
def execOri (rd rs1 : RegIx) (imm : BitVec 12) (s : State) : Host.Outcome State Fault Refusal :=
  finishReg rd (s.readReg rs1 ||| immI imm) s

/-- R102. -/
def execAndi (rd rs1 : RegIx) (imm : BitVec 12) (s : State) : Host.Outcome State Fault Refusal :=
  finishReg rd (s.readReg rs1 &&& immI imm) s

/-- R105. -/
def execSlli (rd rs1 : RegIx) (shamt : BitVec 5) (s : State) : Host.Outcome State Fault Refusal :=
  finishReg rd (shiftLeft (s.readReg rs1) shamt) s

/-- R106. -/
def execSrli (rd rs1 : RegIx) (shamt : BitVec 5) (s : State) : Host.Outcome State Fault Refusal :=
  finishReg rd (shiftRightLogical (s.readReg rs1) shamt) s

/-- R107. -/
def execSrai (rd rs1 : RegIx) (shamt : BitVec 5) (s : State) : Host.Outcome State Fault Refusal :=
  finishReg rd (shiftRightArith (s.readReg rs1) shamt) s

end Sys2Proof.Machine
end

