-- ==== Sys2Proof/Machine/OpReg.lean ====
section
/-! DEFINITION. The OP instructions (48_op.md). -/

namespace Sys2Proof.Machine

/-- R181. -/
def execAdd (rd rs1 rs2 : RegIx) (s : State) : Host.Outcome State Fault Refusal :=
  finishReg rd (s.readReg rs1 + s.readReg rs2) s

/-- R182. -/
def execSub (rd rs1 rs2 : RegIx) (s : State) : Host.Outcome State Fault Refusal :=
  finishReg rd (s.readReg rs1 - s.readReg rs2) s

end Sys2Proof.Machine
end

