-- ==== Sys2Proof/Machine/Store.lean ====
section
/-! DEFINITION. The STORE instructions (41_store.md). A store's word has no ignored bit, so the word in a
fault record is the instruction's encoding (log entry 6). -/

namespace Sys2Proof.Machine

/-- R111: the low byte of x[rs2]. -/
def execSb (rs1 rs2 : RegIx) (imm : BitVec 12) (s : State) : Host.Outcome State Fault Refusal :=
  finishStore (encode (.sb rs1 rs2 imm)) (s.memWrite8 (s.storeAddr rs1 imm) (s.readReg rs2))

/-- R112: the four bytes of x[rs2], the least significant at `ea`. -/
def execSw (rs1 rs2 : RegIx) (imm : BitVec 12) (s : State) : Host.Outcome State Fault Refusal :=
  finishStore (encode (.sw rs1 rs2 imm)) (s.memWrite32 (s.storeAddr rs1 imm) (s.readReg rs2))

end Sys2Proof.Machine
end

