-- ==== Sys2Proof/Machine/Upper.lean ====
section
/-! DEFINITION. LUI (42_lui.md) and AUIPC (46_auipc.md). -/

namespace Sys2Proof.Machine

/-- R120. -/
def execLui (rd : RegIx) (imm : BitVec 20) (s : State) : Host.Outcome State Fault Refusal :=
  finishReg rd (immU imm) s

/-- R160: relative to the AUIPC's own address. -/
def execAuipc (rd : RegIx) (imm : BitVec 20) (s : State) : Host.Outcome State Fault Refusal :=
  finishReg rd (s.pc + immU imm) s

end Sys2Proof.Machine
end

