-- ==== Sys2Proof/Machine/Cycle.lean ====
section
/-! DEFINITION. One cycle of the machine (30_encoding.md R90), in the order of its steps. -/

namespace Sys2Proof.Machine

/-- Steps 4 and 5 of R90 on the fetched word: an unknown word ends the run at once (R84, R205), any other
runs its instruction, whose meaning makes the pc update of step 6. -/
def runWord (w : Word) (s : State) : Host.Outcome State Fault Refusal :=
  match decodeWord w with
  | .ok i => exec i s
  | .unknown _ => .next (s.raise (.unknownInstruction s.pc w (opcodeOf w)))

/-- Steps 1 and 3 of R90: the deferred-fault checkpoint, then the fetch. Step 2 has no effect, since x0 is
hardwired (R21). -/
def runningCycle (s : State) : Host.Outcome State Fault Refusal :=
  if s.pendingFault then .next (s.raise (.illegalWrite s.pc))
  else
    match s.fetch with
    | .absent a => .next (s.raise (.segmentationFault s.pc none a))
    | .ok w => runWord w s

/-- A cycle runs only when `run = Running` (R30, R90). -/
def cycle (s : State) : Host.Outcome State Fault Refusal :=
  match s.run with
  | .running => runningCycle s
  | .halted status => .fault (.runHalted status)
  | .faulted record => .fault (.runFaulted record)

end Sys2Proof.Machine
end

