-- ==== Sys2Proof/Machine/Step.lean ====
section
/-! DEFINITION. The step of the machine, one cycle (70_reset_and_hazards.md R259), and how a word comes
to stand where the next cycle fetches it. -/

namespace Sys2Proof.Machine

/-- One step is one cycle of R90 (R259). -/
def step (s : State) : Host.Outcome State Fault Refusal := cycle s

/-- `s` with the word `w` of the opcode table's numbering stored at the pc, little-endian (R70), the machine
Running and no fault pending, so that the very next step fetches and runs it (log entry 2). -/
def State.withFetchWord (s : State) (nbits w : Nat) : State := s.placeAtPc (tableWord nbits w)

end Sys2Proof.Machine
end

