-- ==== Sys2Proof/Machine/Pseudo.lean ====
section
/-! DEFINITION. The pseudo-instructions of 30_encoding.md R88: what each expands to, and what running an
expansion does. They are spellings of the 25 instructions and decode to nothing of their own (log entry 11). -/

namespace Sys2Proof.Machine

/-- The rows of R88's table. A jump or branch offset is the whole signed offset of the instruction it expands
to; the immediate of `li`, the address of `la` and the offset of `call` and `tail` are 32-bit values. -/
inductive Pseudo where
  | nop
  | mv (rd rs : RegIx)
  | not (rd rs : RegIx)
  | neg (rd rs : RegIx)
  | li (rd : RegIx) (imm : Word)
  | la (rd : RegIx) (sym : Word)
  | j (off : BitVec 21)
  | jal (off : BitVec 21)
  | jr (rs : RegIx)
  | jalr (rs : RegIx)
  | ret
  | call (off : Word)
  | tail (off : Word)
  | beqz (rs : RegIx) (off : BitVec 13)
  | bnez (rs : RegIx) (off : BitVec 13)
  | bltz (rs : RegIx) (off : BitVec 13)
  | bgez (rs : RegIx) (off : BitVec 13)
  | blez (rs : RegIx) (off : BitVec 13)
  | bgtz (rs : RegIx) (off : BitVec 13)
  | bgt (rs rt : RegIx) (off : BitVec 13)
  | ble (rs rt : RegIx) (off : BitVec 13)
  | bgtu (rs rt : RegIx) (off : BitVec 13)
  | bleu (rs rt : RegIx) (off : BitVec 13)
  deriving DecidableEq, Repr

/-- `hi = ((v + 0x800) >> 12) & 0xFFFFF` (R88). -/
def hi20 (v : Word) : BitVec 20 := ((v + 0x800#32) >>> 12).extractLsb' 0 20

/-- `lo = v - (hi << 12)`, its low 12 bits (R88). -/
def lo12 (v : Word) : BitVec 12 := (v - immU (hi20 v)).extractLsb' 0 12

/-- The two expansions of `li` (R88); the range test reads the immediate as signed (log entry 11). -/
def expandLi (rd : RegIx) (imm : Word) : List Instr :=
  if -2048 ≤ imm.toInt ∧ imm.toInt ≤ 2047 then [.addi rd 0#5 (imm.extractLsb' 0 12)]
  else if lo12 imm = 0#12 then [.lui rd (hi20 imm)]
  else [.lui rd (hi20 imm), .addi rd rd (lo12 imm)]

/-- The expansion of R88, where `pc` is the address of its first word, which only `la` reads. -/
def Pseudo.expand (p : Pseudo) (pc : Word) : List Instr :=
  match p with
  | .nop => [.addi 0#5 0#5 0#12]
  | .mv rd rs => [.addi rd rs 0#12]
  | .not rd rs => [.xori rd rs 0xFFF#12]
  | .neg rd rs => [.sub rd 0#5 rs]
  | .li rd imm => expandLi rd imm
  | .la rd sym => [.auipc rd (hi20 (sym - pc)), .addi rd rd (lo12 (sym - pc))]
  | .j off => [.jal 0#5 off]
  | .jal off => [.jal 1#5 off]
  | .jr rs => [.jalr 0#5 rs 0#12]
  | .jalr rs => [.jalr 1#5 rs 0#12]
  | .ret => [.jalr 0#5 1#5 0#12]
  | .call off => [.auipc 1#5 (hi20 off), .jalr 1#5 1#5 (lo12 off)]
  | .tail off => [.auipc 6#5 (hi20 off), .jalr 0#5 6#5 (lo12 off)]
  | .beqz rs off => [.beq rs 0#5 off]
  | .bnez rs off => [.bne rs 0#5 off]
  | .bltz rs off => [.blt rs 0#5 off]
  | .bgez rs off => [.bge rs 0#5 off]
  | .blez rs off => [.bge 0#5 rs off]
  | .bgtz rs off => [.blt 0#5 rs off]
  | .bgt rs rt off => [.blt rt rs off]
  | .ble rs rt off => [.bge rt rs off]
  | .bgtu rs rt off => [.bltu rt rs off]
  | .bleu rs rt off => [.bgeu rt rs off]

/-- One instruction after another, as the cycles that fetch them run them (R90 step 5). -/
def execAll (is : List Instr) (s : State) : Host.Outcome State Fault Refusal :=
  match is with
  | [] => .next s
  | i :: rest =>
    match exec i s with
    | .next t => execAll rest t
    | .fault r => .fault r
    | .refused r => .refused r

/-- The expansion of a pseudo-instruction that stands at the pc, run from there. -/
def State.runPseudo (s : State) (p : Pseudo) : Host.Outcome State Fault Refusal :=
  execAll (p.expand s.pc) s

end Sys2Proof.Machine
end

