-- ==== Sys2Proof/Machine/Boot.lean ====
section
/-! DEFINITION. The load sequence (70_reset_and_hazards.md R250, R252): the one way the CORE starts. -/

namespace Sys2Proof.Machine

/-- One cell per image byte at sequential addresses from `a` (R48, R250). -/
def imageCells (a : Nat) (img : List Byte) : Memory :=
  match img with
  | [] => []
  | b :: rest => (a, b) :: imageCells (a + 1) rest

/-- The cells after load: the image, or the sentinel cell when the image leaves address 0 without one
(R250, D7). -/
def loadedCells (img : List Byte) : Memory :=
  match img with
  | [] => [(0, Config.sentinelByte)]
  | _ :: _ => imageCells 0 img

/-- `run` at the start (R250, R252): Running if the cells fit, else Faulted(OutOfCapacity). The record names
the reset vector as pc, no instruction, and the address after the ones the capacity covers (log entry 5). -/
def startRun (cap : Option Nat) (cells : Nat) : RunState :=
  match cap with
  | none => .running
  | some c =>
    if cells ≤ c then .running
    else .faulted (.outOfCapacity Config.resetVector none (BitVec.ofNat 32 c))

/-- The state the load sequence of R250 leaves for an image and a `MEM_CAPACITY`. DESIGN CHOICE, log entry 10:
when the image does not fit (R252), memory and fill are those of R250's steps all the same, every image byte a
cell and fill above the capacity. -/
def loadedState (cap : Option Nat) (img : List Byte) : State where
  regs := Vector.replicate 32 0#32
  pc := Config.resetVector
  mem := loadedCells img
  fill := (loadedCells img).length
  codeBoundary := img.length
  pendingFault := false
  run := startRun cap (loadedCells img).length
  memCapacity := cap

/-- The load sequence; an image of more than 2^32 bytes is refused (93_implementation_defined.md, R252). -/
def load (cap : Option Nat) (img : List Byte) : Host.Outcome State Fault Refusal :=
  if img.length ≤ Config.addressSpace then .next (loadedState cap img) else .refused .imageTooLong

end Sys2Proof.Machine
end

