-- ==== Sys2Proof/Machine/Status.lean ====
section
/-! DEFINITION. The status interface (70_reset_and_hazards.md R257, 60_exceptions.md R201): what the host
reads of `run`. -/

namespace Sys2Proof.Machine

/-- The reason codes of R201 (D11). -/
def FaultRecord.code (r : FaultRecord) : Nat :=
  match r with
  | .segmentationFault _ _ _ => 1
  | .illegalWrite _ => 2
  | .outOfCapacity _ _ _ => 3
  | .unknownInstruction _ _ _ => 4

/-- The run-state codes of R257 (D11). -/
def RunState.code (r : RunState) : Nat :=
  match r with
  | .running => 0
  | .halted _ => 1
  | .faulted _ => 2

/-- What the status interface shows: the run-state code, the exit status of a halt, the reason code and
record of a fault. -/
structure Status where
  runCode : Nat
  exitStatus : Option Word
  reasonCode : Option Nat
  record : Option FaultRecord
  deriving DecidableEq, Repr

/-- The status, readable at any time (R257). -/
def State.status (s : State) : Status :=
  match s.run with
  | .running => ⟨s.run.code, none, none, none⟩
  | .halted v => ⟨s.run.code, some v, none, none⟩
  | .faulted r => ⟨s.run.code, none, some r.code, some r⟩

end Sys2Proof.Machine
end

