-- ==== Sys2Proof/Machine/Trace.lean ====
section
/-! DEFINITION. The trace port (60_exceptions.md R218): the record a cycle emits, computed from the state the
cycle starts in. It is an output of the step and no state (10_state.md R20; log entry 7), so it cannot
influence any other result (R17). -/

namespace Sys2Proof.Machine

/-- The mnemonic of the opcode table (R87, R218). -/
def mnemonicOf (i : Instr) : String :=
  match i with
  | .lui _ _ => "LUI"
  | .auipc _ _ => "AUIPC"
  | .jal _ _ => "JAL"
  | .jalr _ _ _ => "JALR"
  | .beq _ _ _ => "BEQ"
  | .bne _ _ _ => "BNE"
  | .blt _ _ _ => "BLT"
  | .bge _ _ _ => "BGE"
  | .bltu _ _ _ => "BLTU"
  | .bgeu _ _ _ => "BGEU"
  | .lb _ _ _ => "LB"
  | .lw _ _ _ => "LW"
  | .lbu _ _ _ => "LBU"
  | .lhu _ _ _ => "LHU"
  | .sb _ _ _ => "SB"
  | .sw _ _ _ => "SW"
  | .addi _ _ _ => "ADDI"
  | .xori _ _ _ => "XORI"
  | .ori _ _ _ => "ORI"
  | .andi _ _ _ => "ANDI"
  | .slli _ _ _ => "SLLI"
  | .srli _ _ _ => "SRLI"
  | .srai _ _ _ => "SRAI"
  | .add _ _ _ => "ADD"
  | .sub _ _ _ => "SUB"

/-- A register whose value the instruction changed, with its values before and after (R218; log entry 8). -/
structure RegDelta where
  reg : RegIx
  before : Word
  after : Word
  deriving DecidableEq, Repr

/-- The record of R218: pc, raw word, mnemonic, decoded operands, register deltas. -/
structure TraceRecord where
  pc : Word
  word : Word
  mnemonic : String
  operands : Instr
  deltas : List RegDelta
  deriving DecidableEq, Repr

/-- The 32 register numbers in order. -/
def allRegs : List RegIx := (List.range 32).map (BitVec.ofNat 5)

/-- The registers that differ between two states. -/
def regDeltas (s t : State) : List RegDelta :=
  (allRegs.filter fun r => s.readReg r != t.readReg r).map fun r => ⟨r, s.readReg r, t.readReg r⟩

/-- The record of an instruction that completes (R218, D16): none when the run ended in it. -/
def completedRecord (w : Word) (i : Instr) (s : State) : Option TraceRecord :=
  match exec i s with
  | .next t =>
    if t.run = .running then some ⟨s.pc, w, mnemonicOf i, i, regDeltas s t⟩ else none
  | .fault _ => none
  | .refused _ => none

/-- The record the cycle that starts in `s` emits at step 7 of R90, if any. -/
def traceRecord (s : State) : Option TraceRecord :=
  if s.run = .running ∧ s.pendingFault = false then
    match s.fetch with
    | .absent _ => none
    | .ok w =>
      match decodeWord w with
      | .unknown _ => none
      | .ok i => completedRecord w i s
  else none

/-- The records of the first `k` cycles from `s`, in order (R17, R257). -/
def trace (k : Nat) (s : State) : List TraceRecord :=
  match k with
  | 0 => []
  | k + 1 =>
    match step s with
    | .next t => (traceRecord s).toList ++ trace k t
    | .fault _ => []
    | .refused _ => []

end Sys2Proof.Machine
end

