-- ==== Sys2Proof/Safety.lean ====
section
/-! DEFINITION. The words statements are made of: what a good state is, which bytes an access touches, when
an access is backed, what an unknown word is, which registers and bytes an instruction may write. Each is
written from the spec, not from the meanings. -/

namespace Sys2Proof.Machine

/-! ## The invariant of a run -/

/-- What every state of a run meets: memory in canonical form (R27, R40), `fill` the number of cells (R31),
slot 0 of the register file never written (R21), an even pc (R26), a boundary inside its range (R28) with
every image address backed (R54), and a running machine within its capacity (R31, R62). -/
structure State.Inv (s : State) : Prop where
  memWf : s.mem.wf = true
  fillCounts : s.fill = s.mem.length
  x0Unwritten : s.regs[0] = 0#32
  pcEven : s.pc.getLsbD 0 = false
  boundaryInRange : s.codeBoundary ≤ Config.addressSpace
  imageBacked : ∀ a, a < s.codeBoundary → (s.mem.read a).isSome = true
  withinCapacity : s.run = .running → ∀ c, s.memCapacity = some c → s.fill ≤ c

/-! ## Runs -/

/-- A machine that is in the middle of a run with no fault pending: the next cycle fetches (R90). -/
def State.fetches (s : State) : Prop := s.run = .running ∧ s.pendingFault = false

/-- The next cycle fetches the word `w` (R90 step 3). -/
def State.fetchesWord (s : State) (w : Word) : Prop := s.fetches ∧ s.fetch = .ok w

/-- The next cycle runs the instruction `i` (R90 step 5). -/
def State.runs (s : State) (i : Instr) : Prop :=
  ∃ w, s.fetchesWord w ∧ decodeWord w = .ok i

/-! ## Bytes of an access -/

/-- The `n` byte addresses of an access at `a`, `a + k` modulo 2^32 (R43, R46). -/
def span (a : Word) (n : Nat) : List Word := (List.range n).map fun k => a + BitVec.ofNat 32 k

/-- Every byte of the access holds a cell. -/
def State.backed (s : State) (a : Word) (n : Nat) : Prop := ∀ e ∈ span a n, (s.byteAt e).isSome = true

/-- How many cells the store of `n` bytes at `a` creates (R45). -/
def State.newCells (s : State) (a : Word) (n : Nat) : Nat :=
  ((span a n).filter fun e => (s.byteAt e).isNone).length

/-- The store of `n` bytes at `a` finds a cell or room for one for every byte (R45, R46). -/
def State.hasRoom (s : State) (a : Word) (n : Nat) : Prop :=
  ∀ c, s.memCapacity = some c → s.newCells a n = 0 ∨ s.fill + s.newCells a n ≤ c

/-- Some byte of the store of `n` bytes at `a` lies below the code boundary (R45). -/
def State.touchesImage (s : State) (a : Word) (n : Nat) : Prop :=
  ∃ e ∈ span a n, e.toNat < s.codeBoundary

/-- The address and width of the bytes an instruction stores to, if it is a store (R110 to R112). -/
def storeSpan (i : Instr) (s : State) : Option (Word × Nat) :=
  match i with
  | .lui _ _ => none
  | .auipc _ _ => none
  | .jal _ _ => none
  | .jalr _ _ _ => none
  | .beq _ _ _ => none
  | .bne _ _ _ => none
  | .blt _ _ _ => none
  | .bge _ _ _ => none
  | .bltu _ _ _ => none
  | .bgeu _ _ _ => none
  | .lb _ _ _ => none
  | .lw _ _ _ => none
  | .lbu _ _ _ => none
  | .lhu _ _ _ => none
  | .sb rs1 _ imm => some (s.storeAddr rs1 imm, 1)
  | .sw rs1 _ imm => some (s.storeAddr rs1 imm, 4)
  | .addi _ _ _ => none
  | .xori _ _ _ => none
  | .ori _ _ _ => none
  | .andi _ _ _ => none
  | .slli _ _ _ => none
  | .srli _ _ _ => none
  | .srai _ _ _ => none
  | .add _ _ _ => none
  | .sub _ _ _ => none

/-- The byte addresses an instruction stores to (R51: only SB and SW store). -/
def storedBytes (i : Instr) (s : State) : List Word :=
  match storeSpan i s with
  | some (a, n) => span a n
  | none => []

/-- The register an instruction names as its destination, if it has one (R22). -/
def destReg (i : Instr) : Option RegIx :=
  match i with
  | .lui rd _ => some rd
  | .auipc rd _ => some rd
  | .jal rd _ => some rd
  | .jalr rd _ _ => some rd
  | .beq _ _ _ => none
  | .bne _ _ _ => none
  | .blt _ _ _ => none
  | .bge _ _ _ => none
  | .bltu _ _ _ => none
  | .bgeu _ _ _ => none
  | .lb rd _ _ => some rd
  | .lw rd _ _ => some rd
  | .lbu rd _ _ => some rd
  | .lhu rd _ _ => some rd
  | .sb _ _ _ => none
  | .sw _ _ _ => none
  | .addi rd _ _ => some rd
  | .xori rd _ _ => some rd
  | .ori rd _ _ => some rd
  | .andi rd _ _ => some rd
  | .slli rd _ _ => some rd
  | .srli rd _ _ => some rd
  | .srai rd _ _ => some rd
  | .add rd _ _ => some rd
  | .sub rd _ _ => some rd

/-- Whether the instruction sets the pc itself, so that it takes no default advance (R96): JAL, JALR, and a
branch whose condition holds (R151 to R156). -/
def setsPc (i : Instr) (s : State) : Prop :=
  match i with
  | .lui _ _ => False
  | .auipc _ _ => False
  | .jal _ _ => True
  | .jalr _ _ _ => True
  | .beq rs1 rs2 _ => s.readReg rs1 = s.readReg rs2
  | .bne rs1 rs2 _ => s.readReg rs1 ≠ s.readReg rs2
  | .blt rs1 rs2 _ => (s.readReg rs1).toInt < (s.readReg rs2).toInt
  | .bge rs1 rs2 _ => (s.readReg rs2).toInt ≤ (s.readReg rs1).toInt
  | .bltu rs1 rs2 _ => (s.readReg rs1).toNat < (s.readReg rs2).toNat
  | .bgeu rs1 rs2 _ => (s.readReg rs2).toNat ≤ (s.readReg rs1).toNat
  | .lb _ _ _ => False
  | .lw _ _ _ => False
  | .lbu _ _ _ => False
  | .lhu _ _ _ => False
  | .sb _ _ _ => False
  | .sw _ _ _ => False
  | .addi _ _ _ => False
  | .xori _ _ _ => False
  | .ori _ _ _ => False
  | .andi _ _ _ => False
  | .slli _ _ _ => False
  | .srli _ _ _ => False
  | .srai _ _ _ => False
  | .add _ _ _ => False
  | .sub _ _ _ => False

/-- The 32-bit immediate or shift amount an instruction computes with, if its format has one (R73 to R78). -/
def immValue (i : Instr) : Option Word :=
  match i with
  | .lui _ imm => some (immU imm)
  | .auipc _ imm => some (immU imm)
  | .jal _ off => some (immJ off)
  | .jalr _ _ imm => some (immI imm)
  | .beq _ _ off => some (immB off)
  | .bne _ _ off => some (immB off)
  | .blt _ _ off => some (immB off)
  | .bge _ _ off => some (immB off)
  | .bltu _ _ off => some (immB off)
  | .bgeu _ _ off => some (immB off)
  | .lb _ _ imm => some (immI imm)
  | .lw _ _ imm => some (immI imm)
  | .lbu _ _ imm => some (immI imm)
  | .lhu _ _ imm => some (immI imm)
  | .sb _ _ imm => some (immS imm)
  | .sw _ _ imm => some (immS imm)
  | .addi _ _ imm => some (immI imm)
  | .xori _ _ imm => some (immI imm)
  | .ori _ _ imm => some (immI imm)
  | .andi _ _ imm => some (immI imm)
  | .slli _ _ shamt => some (shamt.setWidth 32)
  | .srli _ _ shamt => some (shamt.setWidth 32)
  | .srai _ _ shamt => some (shamt.setWidth 32)
  | .add _ _ _ => none
  | .sub _ _ _ => none

/-! ## Encodings -/

/-- The bits of a word that selection or an operand reads (R82): SLLI ignores bits 31:25; SRLI, SRAI, ADD and
SUB ignore bits 31 and 29:25; every other instruction reads all 32. -/
def significantBits (i : Instr) : Word :=
  match i with
  | .lui _ _ => 0xFFFFFFFF#32
  | .auipc _ _ => 0xFFFFFFFF#32
  | .jal _ _ => 0xFFFFFFFF#32
  | .jalr _ _ _ => 0xFFFFFFFF#32
  | .beq _ _ _ => 0xFFFFFFFF#32
  | .bne _ _ _ => 0xFFFFFFFF#32
  | .blt _ _ _ => 0xFFFFFFFF#32
  | .bge _ _ _ => 0xFFFFFFFF#32
  | .bltu _ _ _ => 0xFFFFFFFF#32
  | .bgeu _ _ _ => 0xFFFFFFFF#32
  | .lb _ _ _ => 0xFFFFFFFF#32
  | .lw _ _ _ => 0xFFFFFFFF#32
  | .lbu _ _ _ => 0xFFFFFFFF#32
  | .lhu _ _ _ => 0xFFFFFFFF#32
  | .sb _ _ _ => 0xFFFFFFFF#32
  | .sw _ _ _ => 0xFFFFFFFF#32
  | .addi _ _ _ => 0xFFFFFFFF#32
  | .xori _ _ _ => 0xFFFFFFFF#32
  | .ori _ _ _ => 0xFFFFFFFF#32
  | .andi _ _ _ => 0xFFFFFFFF#32
  | .slli _ _ _ => 0x01FFFFFF#32
  | .srli _ _ _ => 0x41FFFFFF#32
  | .srai _ _ _ => 0x41FFFFFF#32
  | .add _ _ _ => 0x41FFFFFF#32
  | .sub _ _ _ => 0x41FFFFFF#32

/-- Some bit outside the nine major opcodes of R80, or a funct3 of R84's list: an UNKNOWN word. -/
def isUnknownWord (w : Word) : Prop :=
  let op := w.extractLsb' 0 7
  let f3 := w.extractLsb' 12 3
  (op ∉ [0x13#7, 0x23#7, 0x37#7, 0x03#7, 0x67#7, 0x63#7, 0x17#7, 0x6F#7, 0x33#7]) ∨
  (op = 0x03#7 ∧ f3 ∈ [1#3, 3#3, 6#3, 7#3]) ∨
  (op = 0x23#7 ∧ f3 ∈ [1#3, 3#3, 4#3, 5#3, 6#3, 7#3]) ∨
  (op = 0x63#7 ∧ f3 ∈ [2#3, 3#3]) ∨
  (op = 0x13#7 ∧ f3 ∈ [2#3, 3#3]) ∨
  (op = 0x33#7 ∧ f3 ≠ 0#3) ∨
  (op = 0x67#7 ∧ f3 ≠ 0#3)

/-! ## What a completed instruction leaves -/

/-- The registers after `x[rd] <- v` (R21): x0 reads 0, rd reads `v` unless it is x0, every other register is
as before. -/
def State.wroteReg (s t : State) (rd : RegIx) (v : Word) : Prop :=
  ∀ r, t.readReg r = if r = 0#5 then 0#32 else if r = rd then v else s.readReg r

/-- Everything but the registers and the pc is as before. -/
def State.sameRest (s t : State) : Prop :=
  t.mem = s.mem ∧ t.fill = s.fill ∧ t.codeBoundary = s.codeBoundary ∧
    t.pendingFault = s.pendingFault ∧ t.run = s.run ∧ t.memCapacity = s.memCapacity

/-- `ea` is the effective address: the base register's value plus the signed 12-bit offset, modulo 2^32
(R110, R130). -/
def State.isEffectiveAddr (s : State) (rs1 : RegIx) (imm : BitVec 12) (ea : Word) : Prop :=
  (ea.toNat : Int) = (((s.readReg rs1).toNat : Int) + imm.toInt) % 4294967296

/-- `pc'` is the address of the instruction plus a signed offset, modulo 2^32 (R25, R150, R170). -/
def State.isRelativePc (s : State) (off : Int) (pc' : Word) : Prop :=
  (pc'.toNat : Int) = ((s.pc.toNat : Int) + off) % 4294967296

/-- Byte `k` of the access at `a` is the first of its bytes that holds no cell (R43, D15). -/
def State.firstAbsent (s : State) (a : Word) (k : Nat) : Prop :=
  (∀ j, j < k → (s.byteAt (a + BitVec.ofNat 32 j)).isSome = true) ∧
    s.byteAt (a + BitVec.ofNat 32 k) = none

end Sys2Proof.Machine
end

