-- ==== Sys2Proof/Certificates/Slice0/Obligations.lean ====
section
/-! DEFINITION. The statements for the provers, from the numbered rules of spec/. -/

open Sys2Proof Sys2Proof.Machine

/-! ## Encoding -/

/-- 30_encoding.md sections 2 to 4 (R71 to R82): the bytes of a well-formed instruction's word, whatever
follows them, decode to that instruction, with every operand at every value its field admits. -/
def Obligations.DecodeOfEncode : Prop :=
  ∀ (i : Instr) (rest : List Byte), i.wf = true → decode (bytesOf (encode i) ++ rest) = .ok i

/-- 30_encoding.md R75, R77 ("always even"): a word decodes to well-formed instructions only. -/
def Obligations.DecodedInstructionIsWellFormed : Prop :=
  ∀ (w : Word) (i : Instr), decodeWord w = .ok i → i.wf = true

/-- 30_encoding.md R82 (the spec's decision D3): a word and the encoding of what it decodes to agree in every
bit that selection or an operand reads; the other bits are ignored. -/
def Obligations.EncodeOfDecodeOnSignificantBits : Prop :=
  (∀ (w : Word) (i : Instr), decodeWord w = .ok i →
    w &&& significantBits i = encode i &&& significantBits i) ∧
  ∀ (w w' : Word) (i : Instr), decodeWord w = .ok i →
    w' &&& significantBits i = w &&& significantBits i → decodeWord w' = .ok i

/-- R73: the immediate of an OP-IMM word (but for the shifts, R78), a LOAD word or a JALR word is inst[31:20],
sign-extended from 12 bits. -/
def Obligations.ImmediateOfITypeWord : Prop :=
  ∀ (w : Word) (i : Instr), decodeWord w = .ok i →
    (w.extractLsb' 0 7 = 0x13#7 ∧ w.extractLsb' 12 3 ≠ 1#3 ∧ w.extractLsb' 12 3 ≠ 5#3) ∨
      w.extractLsb' 0 7 = 0x03#7 ∨ w.extractLsb' 0 7 = 0x67#7 →
    ∃ v : Word, immValue i = some v ∧
      (∀ k, k < 32 → v.getLsbD k = w.getLsbD (if k < 12 then 20 + k else 31)) ∧
      v.toInt = (if w.getLsbD 31 then ((w.toNat / 2 ^ 20 : Nat) : Int) - 4096 else ((w.toNat / 2 ^ 20 : Nat) : Int)) ∧
      -2048 ≤ v.toInt ∧ v.toInt ≤ 2047

/-- R74: the immediate of a STORE word is inst[31:25] over inst[11:7], sign-extended from 12 bits. -/
def Obligations.ImmediateOfSTypeWord : Prop :=
  ∀ (w : Word) (i : Instr), decodeWord w = .ok i → w.extractLsb' 0 7 = 0x23#7 →
    ∃ v : Word, immValue i = some v ∧
      (∀ k, k < 32 → v.getLsbD k = w.getLsbD (if k < 5 then 7 + k else if k < 12 then 20 + k else 31)) ∧
      -2048 ≤ v.toInt ∧ v.toInt ≤ 2047

/-- R75: the offset of a BRANCH word takes bit 12 from inst[31], bit 11 from inst[7], bits 10:5 from
inst[30:25], bits 4:1 from inst[11:8]; bit 0 is 0 and the upper bits copy bit 12. -/
def Obligations.OffsetOfBTypeWord : Prop :=
  ∀ (w : Word) (i : Instr), decodeWord w = .ok i → w.extractLsb' 0 7 = 0x63#7 →
    ∃ v : Word, immValue i = some v ∧
      v.getLsbD 0 = false ∧
      (∀ k, 1 ≤ k → k ≤ 4 → v.getLsbD k = w.getLsbD (7 + k)) ∧
      (∀ k, 5 ≤ k → k ≤ 10 → v.getLsbD k = w.getLsbD (20 + k)) ∧
      v.getLsbD 11 = w.getLsbD 7 ∧
      (∀ k, 12 ≤ k → k < 32 → v.getLsbD k = w.getLsbD 31) ∧
      -4096 ≤ v.toInt ∧ v.toInt ≤ 4094 ∧ v.toInt % 2 = 0

/-- R76: the immediate of LUI and AUIPC is inst[31:12] left in place over 12 zero bits. -/
def Obligations.ImmediateOfUTypeWord : Prop :=
  ∀ (w : Word) (i : Instr), decodeWord w = .ok i →
    w.extractLsb' 0 7 = 0x37#7 ∨ w.extractLsb' 0 7 = 0x17#7 →
    immValue i = some (w &&& 0xFFFFF000#32)

/-- R77: the offset of a JAL word takes bit 20 from inst[31], bits 19:12 from inst[19:12], bit 11 from
inst[20], bits 10:1 from inst[30:21]; bit 0 is 0 and the upper bits copy bit 20. -/
def Obligations.OffsetOfJTypeWord : Prop :=
  ∀ (w : Word) (i : Instr), decodeWord w = .ok i → w.extractLsb' 0 7 = 0x6F#7 →
    ∃ v : Word, immValue i = some v ∧
      v.getLsbD 0 = false ∧
      (∀ k, 1 ≤ k → k ≤ 10 → v.getLsbD k = w.getLsbD (20 + k)) ∧
      v.getLsbD 11 = w.getLsbD 20 ∧
      (∀ k, 12 ≤ k → k ≤ 19 → v.getLsbD k = w.getLsbD k) ∧
      (∀ k, 20 ≤ k → k < 32 → v.getLsbD k = w.getLsbD 31) ∧
      -1048576 ≤ v.toInt ∧ v.toInt ≤ 1048574 ∧ v.toInt % 2 = 0

/-- R78: the shift amount of an OP-IMM shift word is inst[24:20] alone, 0 to 31, and bit 30 selects the
arithmetic right shift. -/
def Obligations.ShiftAmountOfWord : Prop :=
  ∀ (w : Word) (i : Instr), decodeWord w = .ok i → w.extractLsb' 0 7 = 0x13#7 →
    w.extractLsb' 12 3 = 1#3 ∨ w.extractLsb' 12 3 = 5#3 →
    ∃ (rd rs1 : RegIx) (sh : BitVec 5),
      immValue i = some (sh.setWidth 32) ∧ sh.toNat = w.toNat / 2 ^ 20 % 32 ∧ sh.toNat ≤ 31 ∧
      i = if w.extractLsb' 12 3 = 1#3 then .slli rd rs1 sh
          else if w.getLsbD 30 then .srai rd rs1 sh else .srli rd rs1 sh

/-- 30_encoding.md R84: the words that decode to no instruction are exactly those of its list. The clause for
JALR rests on the spec's decision D4 (R83); the funct3 values are R81's. -/
def Obligations.UnknownWordsAreExactly : Prop :=
  ∀ w : Word, (∃ why, decodeWord w = .unknown why) ↔ isUnknownWord w

/-- 95_test_vectors.md section 2: one word of each family decodes to the instruction it stands for. -/
def Obligations.TableWordsDecode : Prop :=
  decodeWord 0x123450B7#32 = .ok (.lui 1#5 0x12345#20) ∧
  decodeWord 0x00001097#32 = .ok (.auipc 1#5 1#20) ∧
  decodeWord 0xE01FF0EF#32 = .ok (.jal 1#5 (BitVec.ofInt 21 (-512))) ∧
  decodeWord 0x003100E7#32 = .ok (.jalr 1#5 2#5 3#12) ∧
  decodeWord 0xFE2098E3#32 = .ok (.bne 1#5 2#5 (BitVec.ofInt 13 (-16))) ∧
  decodeWord 0x0011D083#32 = .ok (.lhu 1#5 3#5 1#12) ∧
  decodeWord 0x7E21AFA3#32 = .ok (.sw 3#5 2#5 2047#12) ∧
  decodeWord 0xFFF14093#32 = .ok (.xori 1#5 2#5 (BitVec.ofInt 12 (-1))) ∧
  decodeWord 0x40411093#32 = .ok (.slli 1#5 2#5 4#5) ∧
  decodeWord 0x423100B3#32 = .ok (.sub 1#5 2#5 3#5) ∧
  decodeWord 0x00019083#32 = .unknown .loadFunct3

/-! ## The cycle -/

/-- 30_encoding.md R90 steps 3 to 6: when the machine is running with no fault pending and the bytes at the pc
are a word that decodes to `i`, the step is `exec i` and adds nothing (the meaning makes the pc update). -/
def Obligations.StepRunsDecodedInstruction : Prop :=
  ∀ (s : State) (w : Word) (i : Instr),
    s.fetchesWord w → decodeWord w = .ok i → step s = exec i s

/-- R90: the steps of a cycle in their order, up to running the instruction. A cycle that ends before an
instruction runs emits no trace record, and one whose instruction leaves the machine running emits one (an
instruction that ends the run: `TraceRecordOfCompletedInstruction`). The fields of the fault records are the
spec's decision D8; the form of the trace record is the model's choice, log entry 7. -/
def Obligations.CycleOrder : Prop :=
  ∀ s : State,
    (s.run ≠ .running → (∀ t, step s ≠ .next t) ∧ traceRecord s = none) ∧
    (s.run = .running → s.pendingFault = true →
      step s = .next { s with run := .faulted (.illegalWrite s.pc) } ∧ traceRecord s = none) ∧
    (∀ a, s.fetches → s.read32 s.pc = .absent a →
      step s = .next { s with run := .faulted (.segmentationFault s.pc none a) } ∧ traceRecord s = none) ∧
    (∀ w why, s.fetches → s.read32 s.pc = .ok w → decodeWord w = .unknown why →
      step s = .next { s with run := .faulted (.unknownInstruction s.pc w (w.extractLsb' 0 7)) } ∧
        traceRecord s = none) ∧
    (∀ w i, s.fetches → s.read32 s.pc = .ok w → decodeWord w = .ok i →
      step s = exec i s ∧
        (∀ t, exec i s = .next t → t.run = .running →
          ∃ ds, traceRecord s = some ⟨s.pc, w, mnemonicOf i, i, ds⟩))

/-- 00_scope.md R16 and 10_state.md R30: a step has a next state exactly while the run has not ended; it is
never refused, and after the end it answers the fault that names how the run ended (log entry 3). -/
def Obligations.StepSucceedsExactlyWhileRunning : Prop :=
  ∀ s : State,
    (s.run = .running → ∃ t, step s = .next t) ∧
    (∀ v, s.run = .halted v → step s = .fault (.runHalted v)) ∧
    (∀ r, s.run = .faulted r → step s = .fault (.runFaulted r))

/-- R205: an unknown word ends the run at once, reported with the raw word and the decoded opcode, and has no
effect at all; no step follows. -/
def Obligations.UnknownWordEndsRun : Prop :=
  ∀ (s : State) (w : Word), s.fetchesWord w → isUnknownWord w →
    ∃ t, step s = .next t ∧
      t = { s with run := .faulted (.unknownInstruction s.pc w (w.extractLsb' 0 7)) } ∧
      ∀ u, step t ≠ .next u

/-- R203: a store with a byte below the code boundary completes (every byte stored, the pc advanced by 4, the
record emitted, the flag set), and the next cycle ends with IllegalWrite before any fetch. `hasRoom` excludes
only the OutOfCapacity of the same store (R208). -/
def Obligations.IllegalStoreEndsRunNextCycle : Prop :=
  ∀ (s : State) (i : Instr) (a : Word) (n : Nat),
    s.runs i → storeSpan i s = some (a, n) → s.hasRoom a n → s.touchesImage a n →
    ∃ t, step s = .next t ∧ t.run = .running ∧ t.pendingFault = true ∧ t.pc = s.pc + 4#32 ∧
      (∀ e ∈ span a n, (t.byteAt e).isSome = true) ∧
      (∀ rs1 rs2 imm, i = .sb rs1 rs2 imm →
        t.byteAt a = some ((s.readReg rs2).extractLsb' 0 8)) ∧
      (∀ rs1 rs2 imm, i = .sw rs1 rs2 imm → t.read32 a = .ok (s.readReg rs2)) ∧
      (traceRecord s).isSome = true ∧
      step t = .next { t with run := .faulted (.illegalWrite (s.pc + 4#32)) }

/-- 60_exceptions.md R202 for the fetch: with an absent byte at the pc the run ends before decode, nothing else
changes. Which address is recorded is the spec's decision D15. -/
def Obligations.FetchOfAbsentCellFaults : Prop :=
  ∀ (s : State) (k : Nat), k < 4 → s.fetches → s.firstAbsent s.pc k →
    step s = .next { s with run := .faulted (.segmentationFault s.pc none (s.pc + BitVec.ofNat 32 k)) }

/-! ## Results: encoding, the new register value, the pc, and everything else unchanged

Sums of addresses and of the pc wrap modulo 2^32 by R9; past the top of the space that is the spec's
decision D2. The funct3 values in the masks are those of R81. -/

/-- R101. -/
def Obligations.AddiResult : Prop :=
  (∀ w : Word, w &&& 0x0000707F#32 = 0x00000013#32 →
    decodeWord w = .ok (.addi (w.extractLsb' 7 5) (w.extractLsb' 15 5) (w.extractLsb' 20 12))) ∧
  ∀ (s : State) (rd rs1 : RegIx) (imm : BitVec 12),
    ∃ t v, exec (.addi rd rs1 imm) s = .next t ∧
      (v.toNat : Int) = (((s.readReg rs1).toNat : Int) +
        (if imm.getLsbD 11 then (imm.toNat : Int) - 4096 else (imm.toNat : Int))) % 4294967296 ∧
      s.wroteReg t rd v ∧ t.pc = s.pc + 4#32 ∧ s.sameRest t

/-- R102, R103, R104: bit by bit, with the immediate's bit 11 copied upward. -/
def Obligations.LogicImmediateResults : Prop :=
  (∀ w : Word, w &&& 0x0000707F#32 = 0x00007013#32 →
    decodeWord w = .ok (.andi (w.extractLsb' 7 5) (w.extractLsb' 15 5) (w.extractLsb' 20 12))) ∧
  (∀ w : Word, w &&& 0x0000707F#32 = 0x00006013#32 →
    decodeWord w = .ok (.ori (w.extractLsb' 7 5) (w.extractLsb' 15 5) (w.extractLsb' 20 12))) ∧
  (∀ w : Word, w &&& 0x0000707F#32 = 0x00004013#32 →
    decodeWord w = .ok (.xori (w.extractLsb' 7 5) (w.extractLsb' 15 5) (w.extractLsb' 20 12))) ∧
  ∀ (s : State) (rd rs1 : RegIx) (imm : BitVec 12),
    (∃ t v, exec (.andi rd rs1 imm) s = .next t ∧
      (∀ k, k < 32 → v.getLsbD k = ((s.readReg rs1).getLsbD k && imm.getLsbD (min k 11))) ∧
      s.wroteReg t rd v ∧ t.pc = s.pc + 4#32 ∧ s.sameRest t) ∧
    (∃ t v, exec (.ori rd rs1 imm) s = .next t ∧
      (∀ k, k < 32 → v.getLsbD k = ((s.readReg rs1).getLsbD k || imm.getLsbD (min k 11))) ∧
      s.wroteReg t rd v ∧ t.pc = s.pc + 4#32 ∧ s.sameRest t) ∧
    (∃ t v, exec (.xori rd rs1 imm) s = .next t ∧
      (∀ k, k < 32 → v.getLsbD k = ((s.readReg rs1).getLsbD k ^^ imm.getLsbD (min k 11))) ∧
      s.wroteReg t rd v ∧ t.pc = s.pc + 4#32 ∧ s.sameRest t)

/-- 40_op_imm.md R105: a true left shift; the ignored bits 31:25 are the spec's decision D3. -/
def Obligations.SlliResult : Prop :=
  (∀ w : Word, w &&& 0x0000707F#32 = 0x00001013#32 →
    decodeWord w = .ok (.slli (w.extractLsb' 7 5) (w.extractLsb' 15 5) (w.extractLsb' 20 5))) ∧
  ∀ (s : State) (rd rs1 : RegIx) (sh : BitVec 5),
    ∃ t v, exec (.slli rd rs1 sh) s = .next t ∧
      v.toNat = (s.readReg rs1).toNat * 2 ^ sh.toNat % 4294967296 ∧
      s.wroteReg t rd v ∧ t.pc = s.pc + 4#32 ∧ s.sameRest t

/-- R106, R107: SRLI divides the unsigned value, SRAI the signed one, rounding toward minus infinity. -/
def Obligations.RightShiftResults : Prop :=
  (∀ w : Word, w &&& 0x4000707F#32 = 0x00005013#32 →
    decodeWord w = .ok (.srli (w.extractLsb' 7 5) (w.extractLsb' 15 5) (w.extractLsb' 20 5))) ∧
  (∀ w : Word, w &&& 0x4000707F#32 = 0x40005013#32 →
    decodeWord w = .ok (.srai (w.extractLsb' 7 5) (w.extractLsb' 15 5) (w.extractLsb' 20 5))) ∧
  ∀ (s : State) (rd rs1 : RegIx) (sh : BitVec 5),
    (∃ t v, exec (.srli rd rs1 sh) s = .next t ∧
      v.toNat = (s.readReg rs1).toNat / 2 ^ sh.toNat ∧
      s.wroteReg t rd v ∧ t.pc = s.pc + 4#32 ∧ s.sameRest t) ∧
    (∃ t v, exec (.srai rd rs1 sh) s = .next t ∧
      v.toInt = (s.readReg rs1).toInt / (2 ^ sh.toNat : Int) ∧
      s.wroteReg t rd v ∧ t.pc = s.pc + 4#32 ∧ s.sameRest t)

/-- R181, R182. -/
def Obligations.AddSubResults : Prop :=
  (∀ w : Word, w &&& 0x4000707F#32 = 0x00000033#32 →
    decodeWord w = .ok (.add (w.extractLsb' 7 5) (w.extractLsb' 15 5) (w.extractLsb' 20 5))) ∧
  (∀ w : Word, w &&& 0x4000707F#32 = 0x40000033#32 →
    decodeWord w = .ok (.sub (w.extractLsb' 7 5) (w.extractLsb' 15 5) (w.extractLsb' 20 5))) ∧
  ∀ (s : State) (rd rs1 rs2 : RegIx),
    (∃ t v, exec (.add rd rs1 rs2) s = .next t ∧
      v.toNat = ((s.readReg rs1).toNat + (s.readReg rs2).toNat) % 4294967296 ∧
      s.wroteReg t rd v ∧ t.pc = s.pc + 4#32 ∧ s.sameRest t) ∧
    (∃ t v, exec (.sub rd rs1 rs2) s = .next t ∧
      (v.toNat : Int) = (((s.readReg rs1).toNat : Int) - ((s.readReg rs2).toNat : Int)) % 4294967296 ∧
      s.wroteReg t rd v ∧ t.pc = s.pc + 4#32 ∧ s.sameRest t)

/-- R120. -/
def Obligations.LuiResult : Prop :=
  (∀ w : Word, w &&& 0x0000007F#32 = 0x00000037#32 →
    decodeWord w = .ok (.lui (w.extractLsb' 7 5) (w.extractLsb' 12 20))) ∧
  ∀ (s : State) (rd : RegIx) (imm : BitVec 20),
    ∃ t v, exec (.lui rd imm) s = .next t ∧ v.toNat = imm.toNat * 4096 ∧
      s.wroteReg t rd v ∧ t.pc = s.pc + 4#32 ∧ s.sameRest t

/-- R160: relative to the AUIPC's own address. -/
def Obligations.AuipcResult : Prop :=
  (∀ w : Word, w &&& 0x0000007F#32 = 0x00000017#32 →
    decodeWord w = .ok (.auipc (w.extractLsb' 7 5) (w.extractLsb' 12 20))) ∧
  ∀ (s : State) (rd : RegIx) (imm : BitVec 20),
    ∃ t v, exec (.auipc rd imm) s = .next t ∧
      v.toNat = (s.pc.toNat + imm.toNat * 4096) % 4294967296 ∧
      s.wroteReg t rd v ∧ t.pc = s.pc + 4#32 ∧ s.sameRest t

/-- R170: the link is the address after the JAL, the target is relative to the JAL's own address. JAL never
halts, even to target 0. -/
def Obligations.JalResult : Prop :=
  (∀ w : Word, w &&& 0x0000007F#32 = 0x0000006F#32 →
    ∃ off : BitVec 21, decodeWord w = .ok (.jal (w.extractLsb' 7 5) off) ∧
      off = w.extractLsb' 31 1 ++ w.extractLsb' 12 8 ++ w.extractLsb' 20 1 ++ w.extractLsb' 21 10 ++ 0#1) ∧
  ∀ (s : State) (rd : RegIx) (off : BitVec 21),
    ∃ t, exec (.jal rd off) s = .next t ∧
      s.wroteReg t rd (s.pc + 4#32) ∧ s.isRelativePc off.toInt t.pc ∧ s.sameRest t

/-- 44_jalr.md R140, but for the sentinel: link unless rd is x0, and jump to the sum from the old x[rs1] with
bit 0 cleared. -/
def Obligations.JalrJumps : Prop :=
  (∀ w : Word, w &&& 0x0000707F#32 = 0x00000067#32 →
    decodeWord w = .ok (.jalr (w.extractLsb' 7 5) (w.extractLsb' 15 5) (w.extractLsb' 20 12))) ∧
  ∀ (s : State) (rd rs1 : RegIx) (imm : BitVec 12),
    ¬ (rd = 0#5 ∧ imm = 0#12 ∧ s.readReg rs1 = 0#32) →
    ∃ t, exec (.jalr rd rs1 imm) s = .next t ∧
      s.wroteReg t rd (s.pc + 4#32) ∧
      (∀ ea, s.isEffectiveAddr rs1 imm ea → t.pc.toNat = ea.toNat - ea.toNat % 2) ∧ s.sameRest t

/-- 44_jalr.md R141: the exit sentinel halts and changes nothing else. That the status is x10 is the spec's
decision D1, that pc stays is its decision D9. -/
def Obligations.JalrSentinelHalts : Prop :=
  ∀ (s : State) (rd rs1 : RegIx) (imm : BitVec 12),
    rd = 0#5 → imm = 0#12 → s.readReg rs1 = 0#32 →
    ∃ t, exec (.jalr rd rs1 imm) s = .next t ∧ t = { s with run := .halted (s.readReg 10#5) } ∧
      ∀ u, step t ≠ .next u

/-- R151, R152: bitwise equality of the two registers decides. -/
def Obligations.EqualityBranches : Prop :=
  (∀ w : Word, w &&& 0x0000707F#32 = 0x00000063#32 →
    decodeWord w = .ok (.beq (w.extractLsb' 15 5) (w.extractLsb' 20 5) (immBOf w))) ∧
  (∀ w : Word, w &&& 0x0000707F#32 = 0x00001063#32 →
    decodeWord w = .ok (.bne (w.extractLsb' 15 5) (w.extractLsb' 20 5) (immBOf w))) ∧
  ∀ (s : State) (rs1 rs2 : RegIx) (off : BitVec 13),
    (∃ t, exec (.beq rs1 rs2 off) s = .next t ∧ t.regs = s.regs ∧ s.sameRest t ∧
      (s.readReg rs1 = s.readReg rs2 → s.isRelativePc off.toInt t.pc) ∧
      (s.readReg rs1 ≠ s.readReg rs2 → t.pc = s.pc + 4#32)) ∧
    (∃ t, exec (.bne rs1 rs2 off) s = .next t ∧ t.regs = s.regs ∧ s.sameRest t ∧
      (s.readReg rs1 ≠ s.readReg rs2 → s.isRelativePc off.toInt t.pc) ∧
      (s.readReg rs1 = s.readReg rs2 → t.pc = s.pc + 4#32))

/-- R153, R154: the two's-complement readings decide. -/
def Obligations.SignedBranches : Prop :=
  (∀ w : Word, w &&& 0x0000707F#32 = 0x00004063#32 →
    decodeWord w = .ok (.blt (w.extractLsb' 15 5) (w.extractLsb' 20 5) (immBOf w))) ∧
  (∀ w : Word, w &&& 0x0000707F#32 = 0x00005063#32 →
    decodeWord w = .ok (.bge (w.extractLsb' 15 5) (w.extractLsb' 20 5) (immBOf w))) ∧
  ∀ (s : State) (rs1 rs2 : RegIx) (off : BitVec 13),
    (∃ t, exec (.blt rs1 rs2 off) s = .next t ∧ t.regs = s.regs ∧ s.sameRest t ∧
      ((s.readReg rs1).toInt < (s.readReg rs2).toInt → s.isRelativePc off.toInt t.pc) ∧
      ((s.readReg rs2).toInt ≤ (s.readReg rs1).toInt → t.pc = s.pc + 4#32)) ∧
    (∃ t, exec (.bge rs1 rs2 off) s = .next t ∧ t.regs = s.regs ∧ s.sameRest t ∧
      ((s.readReg rs2).toInt ≤ (s.readReg rs1).toInt → s.isRelativePc off.toInt t.pc) ∧
      ((s.readReg rs1).toInt < (s.readReg rs2).toInt → t.pc = s.pc + 4#32))

/-- R155, R156: the unsigned readings decide. -/
def Obligations.UnsignedBranches : Prop :=
  (∀ w : Word, w &&& 0x0000707F#32 = 0x00006063#32 →
    decodeWord w = .ok (.bltu (w.extractLsb' 15 5) (w.extractLsb' 20 5) (immBOf w))) ∧
  (∀ w : Word, w &&& 0x0000707F#32 = 0x00007063#32 →
    decodeWord w = .ok (.bgeu (w.extractLsb' 15 5) (w.extractLsb' 20 5) (immBOf w))) ∧
  ∀ (s : State) (rs1 rs2 : RegIx) (off : BitVec 13),
    (∃ t, exec (.bltu rs1 rs2 off) s = .next t ∧ t.regs = s.regs ∧ s.sameRest t ∧
      ((s.readReg rs1).toNat < (s.readReg rs2).toNat → s.isRelativePc off.toInt t.pc) ∧
      ((s.readReg rs2).toNat ≤ (s.readReg rs1).toNat → t.pc = s.pc + 4#32)) ∧
    (∃ t, exec (.bgeu rs1 rs2 off) s = .next t ∧ t.regs = s.regs ∧ s.sameRest t ∧
      ((s.readReg rs2).toNat ≤ (s.readReg rs1).toNat → s.isRelativePc off.toInt t.pc) ∧
      ((s.readReg rs1).toNat < (s.readReg rs2).toNat → t.pc = s.pc + 4#32))

/-- 43_load.md R131, R133: one byte, sign-extended by LB and zero-extended by LBU; an unbacked byte ends the run
and writes nothing. The fields of the record are the spec's decision D8; that its word is the instruction's
encoding is the model's deduction, log entry 6 (DEDUCED). -/
def Obligations.ByteLoads : Prop :=
  (∀ w : Word, w &&& 0x0000707F#32 = 0x00000003#32 →
    decodeWord w = .ok (.lb (w.extractLsb' 7 5) (w.extractLsb' 15 5) (w.extractLsb' 20 12))) ∧
  (∀ w : Word, w &&& 0x0000707F#32 = 0x00004003#32 →
    decodeWord w = .ok (.lbu (w.extractLsb' 7 5) (w.extractLsb' 15 5) (w.extractLsb' 20 12))) ∧
  ∀ (s : State) (rd rs1 : RegIx) (imm : BitVec 12) (ea : Word), s.isEffectiveAddr rs1 imm ea →
    (∀ b, s.byteAt ea = some b →
      (∃ t v, exec (.lb rd rs1 imm) s = .next t ∧ v.toInt = b.toInt ∧
        s.wroteReg t rd v ∧ t.pc = s.pc + 4#32 ∧ s.sameRest t) ∧
      (∃ t v, exec (.lbu rd rs1 imm) s = .next t ∧ v.toNat = b.toNat ∧
        s.wroteReg t rd v ∧ t.pc = s.pc + 4#32 ∧ s.sameRest t)) ∧
    (s.byteAt ea = none →
      exec (.lb rd rs1 imm) s = .next
        { s with run := .faulted (.segmentationFault s.pc (some (encode (.lb rd rs1 imm))) ea) } ∧
      exec (.lbu rd rs1 imm) s = .next
        { s with run := .faulted (.segmentationFault s.pc (some (encode (.lbu rd rs1 imm))) ea) })

/-- 43_load.md R134: two bytes, little-endian, zero-extended; the first unbacked byte ends the run. The fields of
the record are the spec's decision D8, its address D15; that its word is the instruction's encoding is the
model's deduction, log entry 6 (DEDUCED). -/
def Obligations.HalfwordLoad : Prop :=
  (∀ w : Word, w &&& 0x0000707F#32 = 0x00005003#32 →
    decodeWord w = .ok (.lhu (w.extractLsb' 7 5) (w.extractLsb' 15 5) (w.extractLsb' 20 12))) ∧
  ∀ (s : State) (rd rs1 : RegIx) (imm : BitVec 12) (ea : Word), s.isEffectiveAddr rs1 imm ea →
    (∀ b0 b1, s.byteAt ea = some b0 → s.byteAt (ea + 1#32) = some b1 →
      ∃ t v, exec (.lhu rd rs1 imm) s = .next t ∧ v.toNat = b0.toNat + 256 * b1.toNat ∧
        s.wroteReg t rd v ∧ t.pc = s.pc + 4#32 ∧ s.sameRest t) ∧
    (∀ k, k < 2 → s.firstAbsent ea k →
      exec (.lhu rd rs1 imm) s = .next
        { s with run := .faulted (.segmentationFault s.pc (some (encode (.lhu rd rs1 imm))) (ea + BitVec.ofNat 32 k)) })

/-- 43_load.md R132: four bytes, little-endian, at any alignment; the first unbacked byte ends the run. The
fields of the record are the spec's decision D8, its address D15; that its word is the instruction's encoding
is the model's deduction, log entry 6 (DEDUCED). -/
def Obligations.WordLoad : Prop :=
  (∀ w : Word, w &&& 0x0000707F#32 = 0x00002003#32 →
    decodeWord w = .ok (.lw (w.extractLsb' 7 5) (w.extractLsb' 15 5) (w.extractLsb' 20 12))) ∧
  ∀ (s : State) (rd rs1 : RegIx) (imm : BitVec 12) (ea : Word), s.isEffectiveAddr rs1 imm ea →
    (∀ b0 b1 b2 b3, s.byteAt ea = some b0 → s.byteAt (ea + 1#32) = some b1 →
      s.byteAt (ea + 2#32) = some b2 → s.byteAt (ea + 3#32) = some b3 →
      ∃ t v, exec (.lw rd rs1 imm) s = .next t ∧
        v.toNat = b0.toNat + 256 * b1.toNat + 65536 * b2.toNat + 16777216 * b3.toNat ∧
        s.wroteReg t rd v ∧ t.pc = s.pc + 4#32 ∧ s.sameRest t) ∧
    (∀ k, k < 4 → s.firstAbsent ea k →
      exec (.lw rd rs1 imm) s = .next
        { s with run := .faulted (.segmentationFault s.pc (some (encode (.lw rd rs1 imm))) (ea + BitVec.ofNat 32 k)) })

/-- 41_store.md R111: the low byte of x[rs2] at `ea`, the flag below the boundary, a new cell counted,
OutOfCapacity when a cell is needed and none is left. The fields of the record are the spec's decision D8; that
its word is the instruction's encoding is the model's deduction, log entry 6 (DEDUCED). -/
def Obligations.ByteStore : Prop :=
  (∀ w : Word, w &&& 0x0000707F#32 = 0x00000023#32 →
    decodeWord w = .ok (.sb (w.extractLsb' 15 5) (w.extractLsb' 20 5)
      (w.extractLsb' 25 7 ++ w.extractLsb' 7 5))) ∧
  ∀ (s : State) (rs1 rs2 : RegIx) (imm : BitVec 12) (ea : Word), s.isEffectiveAddr rs1 imm ea →
    ((s.byteAt ea).isSome = true ∨ (∀ c, s.memCapacity = some c → s.fill < c) →
      ∃ t, exec (.sb rs1 rs2 imm) s = .next t ∧
        t.byteAt ea = some ((s.readReg rs2).extractLsb' 0 8) ∧
        (∀ a : Nat, a ≠ ea.toNat → t.mem.read a = s.mem.read a) ∧
        t.fill = s.fill + (if (s.byteAt ea).isSome then 0 else 1) ∧
        (t.pendingFault = true ↔ s.pendingFault = true ∨ ea.toNat < s.codeBoundary) ∧
        t.regs = s.regs ∧ t.pc = s.pc + 4#32 ∧ t.run = s.run ∧
        t.codeBoundary = s.codeBoundary ∧ t.memCapacity = s.memCapacity) ∧
    (s.byteAt ea = none → s.memCapacity = some s.fill →
      ∃ t, exec (.sb rs1 rs2 imm) s = .next t ∧
        t.run = .faulted (.outOfCapacity s.pc (some (encode (.sb rs1 rs2 imm))) ea) ∧
        t.mem = s.mem ∧ t.fill = s.fill ∧ t.regs = s.regs ∧ t.pc = s.pc ∧
        (t.pendingFault = true ↔ s.pendingFault = true ∨ ea.toNat < s.codeBoundary) ∧
        t.codeBoundary = s.codeBoundary ∧ t.memCapacity = s.memCapacity)

/-- 41_store.md R112: the four bytes of x[rs2], the least significant at `ea`, at any alignment; the flag when
any of them lies below the boundary; OutOfCapacity at byte `k` with the bytes before it written and the pc not
advanced. The ascending order of the bytes is the spec's decision D10, the fields of the record its decision D8;
that the record's word is the instruction's encoding is the model's deduction, log entry 6 (DEDUCED). -/
def Obligations.WordStore : Prop :=
  (∀ w : Word, w &&& 0x0000707F#32 = 0x00002023#32 →
    decodeWord w = .ok (.sw (w.extractLsb' 15 5) (w.extractLsb' 20 5)
      (w.extractLsb' 25 7 ++ w.extractLsb' 7 5))) ∧
  ∀ (s : State) (rs1 rs2 : RegIx) (imm : BitVec 12) (ea : Word), s.isEffectiveAddr rs1 imm ea →
    (s.hasRoom ea 4 →
      ∃ t, exec (.sw rs1 rs2 imm) s = .next t ∧
        (∀ k, k < 4 → t.byteAt (ea + BitVec.ofNat 32 k) = some ((s.readReg rs2).extractLsb' (8 * k) 8)) ∧
        (∀ a : Nat, (∀ e ∈ span ea 4, a ≠ e.toNat) → t.mem.read a = s.mem.read a) ∧
        t.fill = s.fill + s.newCells ea 4 ∧
        (t.pendingFault = true ↔ s.pendingFault = true ∨ s.touchesImage ea 4) ∧
        t.regs = s.regs ∧ t.pc = s.pc + 4#32 ∧ t.run = s.run ∧
        t.codeBoundary = s.codeBoundary ∧ t.memCapacity = s.memCapacity) ∧
    (∀ k, k < 4 → s.byteAt (ea + BitVec.ofNat 32 k) = none →
      s.memCapacity = some (s.fill + s.newCells ea k) →
      ∃ t, exec (.sw rs1 rs2 imm) s = .next t ∧
        t.run = .faulted (.outOfCapacity s.pc (some (encode (.sw rs1 rs2 imm))) (ea + BitVec.ofNat 32 k)) ∧
        (∀ j, j < k → t.byteAt (ea + BitVec.ofNat 32 j) = some ((s.readReg rs2).extractLsb' (8 * j) 8)) ∧
        (∀ a : Nat, (∀ e ∈ span ea k, a ≠ e.toNat) → t.mem.read a = s.mem.read a) ∧
        t.fill = s.fill + s.newCells ea k ∧
        (t.pendingFault = true ↔ s.pendingFault = true ∨ s.touchesImage ea (k + 1)) ∧
        t.regs = s.regs ∧ t.pc = s.pc ∧
        t.codeBoundary = s.codeBoundary ∧ t.memCapacity = s.memCapacity)

/-- 95_test_vectors.md section 1.2 and 20_memory.md R49: a word written by SW is what LW reads at the same
address, at any alignment, across the top of the address space too. -/
def Obligations.StoredWordLoadsBack : Prop :=
  ∀ (s : State) (rs1 rs2 rd : RegIx) (imm : BitVec 12),
    s.hasRoom (s.storeAddr rs1 imm) 4 →
    ∃ t u, exec (.sw rs1 rs2 imm) s = .next t ∧ exec (.lw rd rs1 imm) t = .next u ∧
      u.readReg rd = (if rd = 0#5 then 0#32 else s.readReg rs2) ∧ u.run = s.run

/-! ## The primitives -/

/-- R44: MemRead of 1, 2 and 4 bytes. -/
def Obligations.ReadPrimitive : Prop :=
  ∀ (s : State) (a : Word),
    (∀ b, s.read8 a = .ok b ↔ s.byteAt a = some b) ∧
    (∀ b0 b1, s.byteAt a = some b0 → s.byteAt (a + 1#32) = some b1 →
      ∃ h, s.read16 a = .ok h ∧ h.toNat = b0.toNat + 256 * b1.toNat) ∧
    (∀ b0 b1 b2 b3, s.byteAt a = some b0 → s.byteAt (a + 1#32) = some b1 →
      s.byteAt (a + 2#32) = some b2 → s.byteAt (a + 3#32) = some b3 →
      ∃ v, s.read32 a = .ok v ∧
        v.toNat = b0.toNat + 256 * b1.toNat + 65536 * b2.toNat + 16777216 * b3.toNat) ∧
    (s.firstAbsent a 0 → s.read8 a = .absent a) ∧
    (∀ k, k < 2 → s.firstAbsent a k → s.read16 a = .absent (a + BitVec.ofNat 32 k)) ∧
    (∀ k, k < 4 → s.firstAbsent a k → s.read32 a = .absent (a + BitVec.ofNat 32 k))

/-- R45: `write8`, below and above the code boundary, with a cell to be had and without one. -/
def Obligations.BytePrimitiveWrites : Prop :=
  ∀ (s : State) (a : Word) (v : Byte),
    ((s.byteAt a).isSome = true ∨ s.memCapacity = none ∨ (∃ c, s.memCapacity = some c ∧ s.fill < c) →
      ∃ t, s.write8 a v = .stored t ∧ t.byteAt a = some v ∧
        (∀ b : Nat, b ≠ a.toNat → t.mem.read b = s.mem.read b) ∧
        t.fill = s.fill + (if (s.byteAt a).isSome then 0 else 1) ∧
        (t.pendingFault = true ↔ s.pendingFault = true ∨ a.toNat < s.codeBoundary) ∧
        t.regs = s.regs ∧ t.pc = s.pc ∧ t.codeBoundary = s.codeBoundary ∧ t.run = s.run ∧
        t.memCapacity = s.memCapacity) ∧
    (s.byteAt a = none → s.memCapacity = some s.fill →
      ∃ t, s.write8 a v = .full t a ∧ t.mem = s.mem ∧ t.fill = s.fill ∧
        (t.pendingFault = true ↔ s.pendingFault = true ∨ a.toNat < s.codeBoundary) ∧
        t.regs = s.regs ∧ t.pc = s.pc ∧ t.codeBoundary = s.codeBoundary ∧ t.run = s.run ∧
        t.memCapacity = s.memCapacity)

/-- 20_memory.md R45, last paragraph (an inference the spec marks as its own) and R54: in a state that meets the
invariant, whose `imageBacked` is the spec's "every address below `code_boundary` holds a cell", an illegal
write updates in place and never meets the capacity test. -/
def Obligations.IllegalWriteUpdatesInPlace : Prop :=
  ∀ (s : State) (a : Word) (v : Byte), s.Inv → a.toNat < s.codeBoundary →
    ∃ t, s.write8 a v = .stored t ∧ t.byteAt a = some v ∧ t.fill = s.fill ∧ t.pendingFault = true ∧
      t.mem.length = s.mem.length

/-- 10_state.md R21 (its equivalence argument is marked derived there): x0 reads 0 in every state, a write to
it changes nothing, and a write to any other register reads back and leaves the others alone. -/
def Obligations.RegisterFileReadsBack : Prop :=
  ∀ (s : State) (v : Word),
    s.readReg 0#5 = 0#32 ∧ s.writeReg 0#5 v = s ∧
    ∀ rd, rd ≠ 0#5 → ∀ r, (s.writeReg rd v).readReg r = if r = rd then v else s.readReg r

/-! ## Frames -/

/-- Frame of every instruction but SB and SW (R22, R51, R150, R180): all registers but rd, all of memory, the
fill, the boundary, the flag and the capacity are unchanged, also where a load ends the run. -/
def Obligations.FrameOfRegisterInstructions : Prop :=
  ∀ (i : Instr) (s t : State), storeSpan i s = none → exec i s = .next t →
    (∀ r, destReg i ≠ some r → t.readReg r = s.readReg r) ∧ t.readReg 0#5 = 0#32 ∧
    (∀ a : Nat, t.mem.read a = s.mem.read a) ∧ t.fill = s.fill ∧
    t.codeBoundary = s.codeBoundary ∧ t.pendingFault = s.pendingFault ∧ t.memCapacity = s.memCapacity

/-- Frame of SB and SW (R110): every register, the boundary and the capacity are unchanged, and so is every
byte of memory outside the bytes at the effective address, also where the store is cut short. -/
def Obligations.FrameOfStores : Prop :=
  ∀ (i : Instr) (s t : State) (a : Word) (n : Nat), storeSpan i s = some (a, n) → exec i s = .next t →
    (∀ r, t.readReg r = s.readReg r) ∧
    (∀ b : Nat, (∀ e ∈ span a n, b ≠ e.toNat) → t.mem.read b = s.mem.read b) ∧
    t.codeBoundary = s.codeBoundary ∧ t.memCapacity = s.memCapacity ∧
    (s.pendingFault = true → t.pendingFault = true)

/-! ## The whole machine -/

/-- Every step keeps the invariant, from every state that meets it: memory in canonical form, fill counting
the cells, slot 0 of the register file unwritten, an even pc, the boundary in range with the image backed,
a running machine within its capacity. -/
def Obligations.StepKeepsInvariant : Prop :=
  ∀ s t : State, s.Inv → step s = .next t → t.Inv

/-- The state after reset meets the invariant. Its unbounded capacity is the model's choice (log entry 1). -/
def Obligations.ResetMeetsInvariant : Prop := State.reset.Inv

/-- 70_reset_and_hazards.md R250: every state the load sequence gives, for every image and capacity, meets the
invariant; so does every state of a run from there. The memory of an image that does not fit is the model's
choice (log entry 10). -/
def Obligations.RunsFromLoadKeepInvariant : Prop :=
  ∀ (cap : Option Nat) (img : List Byte) (s : State), load cap img = .next s →
    s.Inv ∧ ∀ (k : Nat) (t : State), Host.Core.run core k s = .next t → t.Inv

/-- 70_reset_and_hazards.md R250 to R252: what the load sequence leaves. The sentinel cell of an empty image is
the spec's decision D7, the start in Faulted its decision D6. Of an image that does not fit, that memory and
fill are those of R250's steps all the same is the model's choice (log entry 10); the record there is the
model's choice too (log entry 5), and the statement leaves it open. -/
def Obligations.LoadSequenceLeaves : Prop :=
  ∀ (cap : Option Nat) (img : List Byte),
    (img.length ≤ 4294967296 →
      ∃ s, load cap img = .next s ∧ (∀ r, s.readReg r = 0#32) ∧ s.pc = 0#32 ∧ s.pendingFault = false ∧
        s.codeBoundary = img.length ∧ s.fill = max img.length 1 ∧ s.memCapacity = cap ∧
        (∀ a, a < img.length → s.mem.read a = img[a]?) ∧
        (∀ a, img.length ≤ a → s.mem.read a = if img = [] ∧ a = 0 then some 0#8 else none) ∧
        ((∀ c, cap = some c → max img.length 1 ≤ c) → s.run = .running) ∧
        (∀ c, cap = some c → c < max img.length 1 →
          ∃ pc inst addr, s.run = .faulted (.outOfCapacity pc inst addr))) ∧
    (4294967296 < img.length → load cap img = .refused .imageTooLong)

/-- 10_state.md R28 (the boundary is read-only after load) and 00_scope.md R7: no step changes the code boundary
or the capacity. -/
def Obligations.BoundaryAndCapacityAreFixed : Prop :=
  ∀ s t : State, step s = .next t → t.codeBoundary = s.codeBoundary ∧ t.memCapacity = s.memCapacity

/-- 10_state.md R27, R31: no step deletes a cell, and the fill count never decreases; each new cell is counted. -/
def Obligations.CellsAreNeverDeleted : Prop :=
  ∀ s t : State, step s = .next t →
    (∀ a : Nat, (s.mem.read a).isSome = true → (t.mem.read a).isSome = true) ∧ s.fill ≤ t.fill ∧
    (s.Inv → t.fill - s.fill = t.mem.length - s.mem.length)

/-- 10_state.md R29: the flag is 0 at start, nothing but a byte write below the boundary sets it, only the
checkpoint reads it, and nothing clears it. That such a write does set it is said by `BytePrimitiveWrites`,
`ByteStore`, `WordStore` and `IllegalStoreEndsRunNextCycle`. -/
def Obligations.FaultFlagIsSetOnlyByIllegalWrites : Prop :=
  (∀ cap img s, load cap img = .next s → s.pendingFault = false) ∧
  (∀ s t : State, step s = .next t →
    (s.pendingFault = true → t.pendingFault = true) ∧
    (s.pendingFault = false → t.pendingFault = true →
      ∃ i e, s.runs i ∧ e ∈ storedBytes i s ∧ e.toNat < s.codeBoundary)) ∧
  (∀ s : State, s.run = .running → s.pendingFault = true →
    ∃ p, step s = .next { s with run := .faulted (.illegalWrite p) }) ∧
  (∀ (i : Instr) (s t : State) (f : Bool), exec i s = .next t →
    ∃ t', exec i { s with pendingFault := f } = .next t' ∧
      { t' with pendingFault := t.pendingFault } = t)

/-- 20_memory.md R51, R53: a step changes the byte at an address only when it runs SB or SW and the address is
one of the bytes at its effective address. -/
def Obligations.MemoryChangesOnlyByStores : Prop :=
  ∀ (s t : State) (a : Nat), step s = .next t → t.mem.read a ≠ s.mem.read a →
    ∃ i e, s.runs i ∧ e ∈ storedBytes i s ∧ e.toNat = a

/-- R96: an instruction that completes without setting the pc itself advances it by 4 modulo 2^32; the ones
that set it are JAL, JALR when it does not halt, and a taken branch. -/
def Obligations.DefaultAdvance : Prop :=
  ∀ (i : Instr) (s t : State), s.run = .running → exec i s = .next t → t.run = .running →
    ¬ setsPc i s → t.pc.toNat = (s.pc.toNat + 4) % 4294967296

/-- 60_exceptions.md R209, R210: a step that ends the run changes only `run`, except that an OutOfCapacity keeps
the bytes its store wrote before it. That pc stays is the spec's decision D9. -/
def Obligations.EndOfRunChangesOnlyRun : Prop :=
  ∀ s t : State, step s = .next t → t.run ≠ .running →
    t.regs = s.regs ∧ t.pc = s.pc ∧ t.codeBoundary = s.codeBoundary ∧
    ((∀ p w a, t.run ≠ .faulted (.outOfCapacity p w a)) → t = { s with run := t.run })

/-- 44_jalr.md R141, 60_exceptions.md R207: only the JALR sentinel ends a run with success. The status x10 is
the spec's decision D1. -/
def Obligations.OnlyTheSentinelHalts : Prop :=
  ∀ (s t : State) (v : Word), step s = .next t → t.run = .halted v →
    ∃ rs1, s.runs (.jalr 0#5 rs1 0#12) ∧ s.readReg rs1 = 0#32 ∧ v = s.readReg 10#5

/-- 60_exceptions.md R201 (the records are the spec's decision D8): what the record of a fault holds. Its pc is
that of the cycle that raised it, its word the fetched one, its address one that holds no cell, its opcode that
of an unknown word. Which instruction a load's or a store's fault came from is not said here; the results of
the loads and stores say it. -/
def Obligations.FaultRecordsAreOfThisCycle : Prop :=
  ∀ (s t : State) (r : FaultRecord), step s = .next t → t.run = .faulted r →
    match r with
    | .segmentationFault p none a => p = s.pc ∧ s.fetches ∧ s.fetch = .absent a ∧ s.byteAt a = none
    | .segmentationFault p (some w) a => p = s.pc ∧ s.fetchesWord w ∧ s.byteAt a = none
    | .illegalWrite p => p = s.pc ∧ s.run = .running ∧ s.pendingFault = true
    | .outOfCapacity p none _ => p = s.pc ∧ False
    | .outOfCapacity p (some w) a =>
      p = s.pc ∧ s.fetchesWord w ∧ t.byteAt a = none ∧ ∃ c, s.memCapacity = some c ∧ c ≤ t.fill
    | .unknownInstruction p w op => p = s.pc ∧ s.fetchesWord w ∧ op = w.extractLsb' 0 7 ∧ isUnknownWord w

/-- 60_exceptions.md R218 (which cycles emit is the spec's decision D16; the form of the deltas is the model's
choice, log entry 8): a cycle emits a record exactly when its instruction completes, and the record's deltas
are exactly the registers that changed, with their values before and after. -/
def Obligations.TraceRecordOfCompletedInstruction : Prop :=
  ∀ s t : State, step s = .next t →
    (t.run ≠ .running → traceRecord s = none) ∧
    (t.run = .running → ∃ w i ds, s.fetchesWord w ∧ decodeWord w = .ok i ∧
      traceRecord s = some ⟨s.pc, w, mnemonicOf i, i, ds⟩ ∧
      (∀ d ∈ ds, d.before = s.readReg d.reg ∧ d.after = t.readReg d.reg) ∧
      ∀ r, (∃ d ∈ ds, d.reg = r) ↔ s.readReg r ≠ t.readReg r)

/-- 70_reset_and_hazards.md R257 and 60_exceptions.md R201 (the codes are the spec's decision D11). -/
def Obligations.StatusShowsRun : Prop :=
  ∀ s : State,
    (s.run = .running → s.status = ⟨0, none, none, none⟩) ∧
    (∀ v, s.run = .halted v → s.status = ⟨1, some v, none, none⟩) ∧
    (∀ p w a, s.run = .faulted (.segmentationFault p w a) →
      s.status = ⟨2, none, some 1, some (.segmentationFault p w a)⟩) ∧
    (∀ p, s.run = .faulted (.illegalWrite p) → s.status = ⟨2, none, some 2, some (.illegalWrite p)⟩) ∧
    (∀ p w a, s.run = .faulted (.outOfCapacity p w a) →
      s.status = ⟨2, none, some 3, some (.outOfCapacity p w a)⟩) ∧
    (∀ p w o, s.run = .faulted (.unknownInstruction p w o) →
      s.status = ⟨2, none, some 4, some (.unknownInstruction p w o)⟩)

/-- 30_encoding.md R70, R90: a word placed at the pc, at any address and over any memory, is what the next step
fetches and runs (log entry 2 says what the placing stands for). -/
def Obligations.PlacedWordRunsNext : Prop :=
  ∀ (s : State) (w : Word) (i : Instr), decodeWord w = .ok i →
    step (s.withFetchWord 32 w.toNat) = exec i (s.withFetchWord 32 w.toNat)

/-! ## Pseudo-instructions

30_encoding.md R88, which the spec gives from general knowledge (its decision D20). How the model reads three
points of the table is its deduction (log entry 11). -/

/-- R88: `nop`, `mv`, `not`, `neg`, both expansions of `li`, and `la` leave in rd what their names say, with x0
discarded, and the pc past the expansion. -/
def Obligations.ValuePseudoInstructions : Prop :=
  ∀ (s : State) (rd rs : RegIx) (v : Word),
    s.runPseudo .nop = .next { s with pc := s.pc + 4#32 } ∧
    (∃ t, s.runPseudo (.mv rd rs) = .next t ∧
      s.wroteReg t rd (s.readReg rs) ∧ t.pc = s.pc + 4#32 ∧ s.sameRest t) ∧
    (∃ t, s.runPseudo (.not rd rs) = .next t ∧
      s.wroteReg t rd (~~~ s.readReg rs) ∧ t.pc = s.pc + 4#32 ∧ s.sameRest t) ∧
    (∃ t, s.runPseudo (.neg rd rs) = .next t ∧
      s.wroteReg t rd (- s.readReg rs) ∧ t.pc = s.pc + 4#32 ∧ s.sameRest t) ∧
    (∃ t, s.runPseudo (.li rd v) = .next t ∧
      s.wroteReg t rd v ∧ s.sameRest t ∧
      t.pc = s.pc + (if (-2048 ≤ v.toInt ∧ v.toInt ≤ 2047) ∨ v.toNat % 4096 = 0 then 4#32 else 8#32)) ∧
    (∃ t, s.runPseudo (.la rd v) = .next t ∧
      s.wroteReg t rd v ∧ t.pc = s.pc + 8#32 ∧ s.sameRest t)

/-- R88: where the jumps go and what they link. Every one that is a JALR with rd x0 and offset 0 (`jr`, `ret`,
and `tail` whose low part is 0) halts with x10 when its register is 0 (44_jalr.md R141). -/
def Obligations.JumpPseudoInstructions : Prop :=
  ∀ (s : State) (rs : RegIx) (off : BitVec 21) (d : Word),
    (∃ t, s.runPseudo (.j off) = .next t ∧ t.regs = s.regs ∧ s.isRelativePc off.toInt t.pc ∧ s.sameRest t) ∧
    (∃ t, s.runPseudo (.jal off) = .next t ∧
      s.wroteReg t 1#5 (s.pc + 4#32) ∧ s.isRelativePc off.toInt t.pc ∧ s.sameRest t) ∧
    (s.readReg rs = 0#32 → s.runPseudo (.jr rs) = .next { s with run := .halted (s.readReg 10#5) }) ∧
    (s.readReg rs ≠ 0#32 → ∃ t, s.runPseudo (.jr rs) = .next t ∧ t.regs = s.regs ∧
      t.pc.toNat = (s.readReg rs).toNat - (s.readReg rs).toNat % 2 ∧ s.sameRest t) ∧
    (∃ t, s.runPseudo (.jalr rs) = .next t ∧ s.wroteReg t 1#5 (s.pc + 4#32) ∧
      t.pc.toNat = (s.readReg rs).toNat - (s.readReg rs).toNat % 2 ∧ s.sameRest t) ∧
    s.runPseudo .ret = s.runPseudo (.jr 1#5) ∧
    (∃ t, s.runPseudo (.call d) = .next t ∧ s.wroteReg t 1#5 (s.pc + 8#32) ∧
      t.pc.toNat = (s.pc + d).toNat - (s.pc + d).toNat % 2 ∧ s.sameRest t) ∧
    (d.toNat % 4096 = 0 → s.pc + d = 0#32 →
      ∃ t, s.runPseudo (.tail d) = .next t ∧ t.run = .halted (s.readReg 10#5) ∧
        s.wroteReg t 6#5 0#32 ∧ t.pc = s.pc + 4#32 ∧ s.sameRest { t with run := s.run }) ∧
    (d.toNat % 4096 ≠ 0 ∨ s.pc + d ≠ 0#32 →
      ∃ t, s.runPseudo (.tail d) = .next t ∧ s.wroteReg t 6#5 (s.pc + immU (hi20 d)) ∧
        t.pc.toNat = (s.pc + d).toNat - (s.pc + d).toNat % 2 ∧ s.sameRest t)

/-- R88: when each branch is taken; it changes the pc alone, to its own address plus the offset when the condition
holds and by 4 when not. -/
def Obligations.BranchPseudoInstructions : Prop :=
  ∀ (s : State) (rs rt : RegIx) (off : BitVec 13) (p : Pseudo) (c : Prop),
    (p = .beqz rs off ∧ (c ↔ s.readReg rs = 0#32)) ∨
    (p = .bnez rs off ∧ (c ↔ s.readReg rs ≠ 0#32)) ∨
    (p = .bltz rs off ∧ (c ↔ (s.readReg rs).toInt < 0)) ∨
    (p = .bgez rs off ∧ (c ↔ 0 ≤ (s.readReg rs).toInt)) ∨
    (p = .blez rs off ∧ (c ↔ (s.readReg rs).toInt ≤ 0)) ∨
    (p = .bgtz rs off ∧ (c ↔ 0 < (s.readReg rs).toInt)) ∨
    (p = .bgt rs rt off ∧ (c ↔ (s.readReg rt).toInt < (s.readReg rs).toInt)) ∨
    (p = .ble rs rt off ∧ (c ↔ (s.readReg rs).toInt ≤ (s.readReg rt).toInt)) ∨
    (p = .bgtu rs rt off ∧ (c ↔ (s.readReg rt).toNat < (s.readReg rs).toNat)) ∨
    (p = .bleu rs rt off ∧ (c ↔ (s.readReg rs).toNat ≤ (s.readReg rt).toNat)) →
    ∃ t, s.runPseudo p = .next t ∧ t.regs = s.regs ∧ s.sameRest t ∧
      (c → s.isRelativePc off.toInt t.pc) ∧ (¬ c → t.pc = s.pc + 4#32)
end

