-- ==== Sys2Proof/Laws/Memory.lean ====
section
/-! SUPPORT. The laws of the store of cells: a read after a write, and the canonical form. -/

namespace Sys2Proof.Machine

variable (m : Memory)

@[simp] theorem Memory.read_write_same (a : Nat) (v : Byte) : (m.write a v).read a = some v := by
  induction m with
  | nil => simp [Memory.write, Memory.read]
  | cons c rest ih =>
    obtain ⟨k, b⟩ := c
    unfold Memory.write
    split
    · simp [Memory.read]
    · split
      · simp [Memory.read]
      · rename_i _ hne
        have : k ≠ a := fun e => hne e.symm
        simp [Memory.read, this, ih]

theorem Memory.read_write_other {a b : Nat} (h : b ≠ a) (v : Byte) : (m.write a v).read b = m.read b := by
  induction m with
  | nil => simp [Memory.write, Memory.read, Ne.symm h]
  | cons c rest ih =>
    obtain ⟨k, x⟩ := c
    unfold Memory.write
    split
    · simp [Memory.read, Ne.symm h]
    · split
      · rename_i _ he
        subst he
        simp [Memory.read, Ne.symm h]
      · simp [Memory.read, ih]

theorem Memory.read_write (a b : Nat) (v : Byte) :
    (m.write a v).read b = if b = a then some v else m.read b := by
  by_cases h : b = a
  · simp [h]
  · simp [h, Memory.read_write_other m h]

/-- A write deletes no cell (R27). -/
theorem Memory.isSome_read_write (a b : Nat) (v : Byte) (h : (m.read b).isSome = true) :
    ((m.write a v).read b).isSome = true := by
  rw [Memory.read_write]
  split <;> simp_all

variable {m}

theorem Memory.risesFrom_mono {lo lo' : Nat} (h : lo' ≤ lo) (hm : m.risesFrom lo = true) :
    m.risesFrom lo' = true := by
  cases m with
  | nil => rfl
  | cons c rest =>
    obtain ⟨k, b⟩ := c
    simp only [Memory.risesFrom, Bool.and_eq_true, decide_eq_true_eq] at hm ⊢
    exact ⟨⟨by omega, hm.1.2⟩, hm.2⟩

/-- No cell below the first address of a rising list. -/
theorem Memory.read_below {lo a : Nat} (hm : m.risesFrom lo = true) (h : a < lo) : m.read a = none := by
  induction m generalizing lo with
  | nil => rfl
  | cons c rest ih =>
    obtain ⟨k, b⟩ := c
    simp only [Memory.risesFrom, Bool.and_eq_true, decide_eq_true_eq] at hm
    have : k ≠ a := by omega
    simp only [Memory.read, this, if_false]
    exact ih hm.2 (by omega)

theorem Memory.risesFrom_write {lo a : Nat} (v : Byte) (hm : m.risesFrom lo = true) (hlo : lo ≤ a)
    (ha : a < Config.addressSpace) : (m.write a v).risesFrom lo = true := by
  induction m generalizing lo with
  | nil => simp [Memory.write, Memory.risesFrom, hlo, ha]
  | cons c rest ih =>
    obtain ⟨k, b⟩ := c
    have hk := hm
    simp only [Memory.risesFrom, Bool.and_eq_true, decide_eq_true_eq] at hk
    unfold Memory.write
    split
    · rename_i hlt
      simp only [Memory.risesFrom, Bool.and_eq_true, decide_eq_true_eq]
      exact ⟨⟨hlo, ha⟩, ⟨by omega, hk.1.2⟩, hk.2⟩
    · split
      · rename_i _ he
        subst he
        simp only [Memory.risesFrom, Bool.and_eq_true, decide_eq_true_eq]
        exact ⟨⟨hlo, ha⟩, hk.2⟩
      · simp only [Memory.risesFrom, Bool.and_eq_true, decide_eq_true_eq]
        exact ⟨hk.1, ih hk.2 (by omega)⟩

/-- A write inside the address space keeps the canonical form. -/
theorem Memory.wf_write {a : Nat} (v : Byte) (hm : m.wf = true) (ha : a < Config.addressSpace) :
    (m.write a v).wf = true :=
  Memory.risesFrom_write v hm (Nat.zero_le a) ha

theorem Memory.length_write_of_risesFrom {lo a : Nat} (v : Byte) (hm : m.risesFrom lo = true) :
    (m.write a v).length = m.length + (if (m.read a).isSome then 0 else 1) := by
  induction m generalizing lo with
  | nil => simp [Memory.write, Memory.read, Memory.unlisted]
  | cons c rest ih =>
    obtain ⟨k, b⟩ := c
    have hk := hm
    simp only [Memory.risesFrom, Bool.and_eq_true, decide_eq_true_eq] at hk
    unfold Memory.write
    split
    · rename_i hlt
      have hne : k ≠ a := by omega
      have := Memory.read_below hk.2 (show a < k + 1 by omega)
      simp [Memory.read, hne, this]
    · split
      · rename_i _ he
        subst he
        simp [Memory.read]
      · rename_i _ hne
        simp [Memory.read, Ne.symm hne, ih hk.2]
        omega

/-- In canonical form a write adds a cell exactly when there was none (R31, R45). -/
theorem Memory.length_write {a : Nat} (v : Byte) (hm : m.wf = true) :
    (m.write a v).length = m.length + (if (m.read a).isSome then 0 else 1) :=
  Memory.length_write_of_risesFrom v hm

/-- Two canonical memories that read alike are equal data. -/
theorem Memory.eq_of_read_eq {m m' : Memory} {lo lo' : Nat} (hm : m.risesFrom lo = true)
    (hm' : m'.risesFrom lo' = true) (h : ∀ a, m.read a = m'.read a) : m = m' := by
  induction m generalizing lo m' lo' with
  | nil =>
    cases m' with
    | nil => rfl
    | cons c rest =>
      obtain ⟨k, b⟩ := c
      have := h k
      simp [Memory.read, Memory.unlisted] at this
  | cons c rest ih =>
    obtain ⟨k, b⟩ := c
    cases m' with
    | nil =>
      have := h k
      simp [Memory.read, Memory.unlisted] at this
    | cons c' rest' =>
      obtain ⟨k', b'⟩ := c'
      simp only [Memory.risesFrom, Bool.and_eq_true, decide_eq_true_eq] at hm hm'
      have hk : k = k' := by
        by_contra hne
        rcases Nat.lt_or_gt_of_ne hne with hlt | hgt
        · have h1 := h k
          have h2 := Memory.read_below hm'.2 (show k < k' + 1 by omega)
          simp [Memory.read, Ne.symm hne, h2] at h1
        · have h1 := h k'
          have h2 := Memory.read_below hm.2 (show k' < k + 1 by omega)
          simp [Memory.read, hne, h2] at h1
      subst hk
      have hb := h k
      simp only [Memory.read, if_true, Option.some.injEq] at hb
      subst hb
      have : rest = rest' := ih hm.2 hm'.2 fun a => by
        by_cases ha : k = a
        · subst ha
          rw [Memory.read_below hm.2 (Nat.lt_succ_self k), Memory.read_below hm'.2 (Nat.lt_succ_self k)]
        · have := h a
          simpa [Memory.read, ha] using this
      rw [this]

end Sys2Proof.Machine
end

