-- ==== Sys2Proof/Laws/State.lean ====
section
/-! SUPPORT. One lemma per field per update of the state, so that no later proof unfolds a record update. -/

namespace Sys2Proof.Machine

variable (s : State)

/-! ## advance -/

@[simp] theorem State.advance_regs : (s.advance).regs = s.regs := rfl
@[simp] theorem State.advance_pc : (s.advance).pc = s.pc + 4#32 := rfl
@[simp] theorem State.advance_mem : (s.advance).mem = s.mem := rfl
@[simp] theorem State.advance_fill : (s.advance).fill = s.fill := rfl
@[simp] theorem State.advance_codeBoundary : (s.advance).codeBoundary = s.codeBoundary := rfl
@[simp] theorem State.advance_pendingFault : (s.advance).pendingFault = s.pendingFault := rfl
@[simp] theorem State.advance_run : (s.advance).run = s.run := rfl
@[simp] theorem State.advance_memCapacity : (s.advance).memCapacity = s.memCapacity := rfl

/-! ## jump -/

@[simp] theorem State.jump_regs (v : Word) : (s.jump v).regs = s.regs := rfl
@[simp] theorem State.jump_pc (v : Word) : (s.jump v).pc = v := rfl
@[simp] theorem State.jump_mem (v : Word) : (s.jump v).mem = s.mem := rfl
@[simp] theorem State.jump_fill (v : Word) : (s.jump v).fill = s.fill := rfl
@[simp] theorem State.jump_codeBoundary (v : Word) : (s.jump v).codeBoundary = s.codeBoundary := rfl
@[simp] theorem State.jump_pendingFault (v : Word) : (s.jump v).pendingFault = s.pendingFault := rfl
@[simp] theorem State.jump_run (v : Word) : (s.jump v).run = s.run := rfl
@[simp] theorem State.jump_memCapacity (v : Word) : (s.jump v).memCapacity = s.memCapacity := rfl

/-! ## raise -/

@[simp] theorem State.raise_regs (r : FaultRecord) : (s.raise r).regs = s.regs := rfl
@[simp] theorem State.raise_pc (r : FaultRecord) : (s.raise r).pc = s.pc := rfl
@[simp] theorem State.raise_mem (r : FaultRecord) : (s.raise r).mem = s.mem := rfl
@[simp] theorem State.raise_fill (r : FaultRecord) : (s.raise r).fill = s.fill := rfl
@[simp] theorem State.raise_codeBoundary (r : FaultRecord) : (s.raise r).codeBoundary = s.codeBoundary := rfl
@[simp] theorem State.raise_pendingFault (r : FaultRecord) : (s.raise r).pendingFault = s.pendingFault := rfl
@[simp] theorem State.raise_run (r : FaultRecord) : (s.raise r).run = .faulted r := rfl
@[simp] theorem State.raise_memCapacity (r : FaultRecord) : (s.raise r).memCapacity = s.memCapacity := rfl

/-! ## halt -/

@[simp] theorem State.halt_regs (v : Word) : (s.halt v).regs = s.regs := rfl
@[simp] theorem State.halt_pc (v : Word) : (s.halt v).pc = s.pc := rfl
@[simp] theorem State.halt_mem (v : Word) : (s.halt v).mem = s.mem := rfl
@[simp] theorem State.halt_fill (v : Word) : (s.halt v).fill = s.fill := rfl
@[simp] theorem State.halt_codeBoundary (v : Word) : (s.halt v).codeBoundary = s.codeBoundary := rfl
@[simp] theorem State.halt_pendingFault (v : Word) : (s.halt v).pendingFault = s.pendingFault := rfl
@[simp] theorem State.halt_run (v : Word) : (s.halt v).run = .halted v := rfl
@[simp] theorem State.halt_memCapacity (v : Word) : (s.halt v).memCapacity = s.memCapacity := rfl

/-! ## writeReg -/

@[simp] theorem State.writeReg_pc (r : RegIx) (v : Word) : (s.writeReg r v).pc = s.pc := by
  unfold State.writeReg; split <;> rfl
@[simp] theorem State.writeReg_mem (r : RegIx) (v : Word) : (s.writeReg r v).mem = s.mem := by
  unfold State.writeReg; split <;> rfl
@[simp] theorem State.writeReg_fill (r : RegIx) (v : Word) : (s.writeReg r v).fill = s.fill := by
  unfold State.writeReg; split <;> rfl
@[simp] theorem State.writeReg_codeBoundary (r : RegIx) (v : Word) : (s.writeReg r v).codeBoundary = s.codeBoundary := by
  unfold State.writeReg; split <;> rfl
@[simp] theorem State.writeReg_pendingFault (r : RegIx) (v : Word) : (s.writeReg r v).pendingFault = s.pendingFault := by
  unfold State.writeReg; split <;> rfl
@[simp] theorem State.writeReg_run (r : RegIx) (v : Word) : (s.writeReg r v).run = s.run := by
  unfold State.writeReg; split <;> rfl
@[simp] theorem State.writeReg_memCapacity (r : RegIx) (v : Word) : (s.writeReg r v).memCapacity = s.memCapacity := by
  unfold State.writeReg; split <;> rfl

/-! ## Reading through an update -/

/-- `readReg` depends on the register file only. -/
theorem State.readReg_congr {s t : State} (h : t.regs = s.regs) (r : RegIx) : t.readReg r = s.readReg r := by
  simp only [State.readReg, h]

/-- `byteAt` depends on the memory only. -/
theorem State.byteAt_congr {s t : State} (h : t.mem = s.mem) (a : Word) : t.byteAt a = s.byteAt a := by
  simp only [State.byteAt, h]

@[simp] theorem State.advance_readReg (r : RegIx) : s.advance.readReg r = s.readReg r := rfl
@[simp] theorem State.jump_readReg (v : Word) (r : RegIx) : (s.jump v).readReg r = s.readReg r := rfl
@[simp] theorem State.raise_readReg (f : FaultRecord) (r : RegIx) : (s.raise f).readReg r = s.readReg r := rfl
@[simp] theorem State.halt_readReg (v : Word) (r : RegIx) : (s.halt v).readReg r = s.readReg r := rfl

@[simp] theorem State.advance_byteAt (a : Word) : s.advance.byteAt a = s.byteAt a := rfl
@[simp] theorem State.jump_byteAt (v a : Word) : (s.jump v).byteAt a = s.byteAt a := rfl
@[simp] theorem State.raise_byteAt (f : FaultRecord) (a : Word) : (s.raise f).byteAt a = s.byteAt a := rfl
@[simp] theorem State.halt_byteAt (v a : Word) : (s.halt v).byteAt a = s.byteAt a := rfl

@[simp] theorem State.readReg_zero : s.readReg 0#5 = 0#32 := rfl

/-- Reading a register after a write of one (R21). -/
theorem State.readReg_writeReg (rd r : RegIx) (v : Word) :
    (s.writeReg rd v).readReg r = if r = 0#5 then 0#32 else if r = rd then v else s.readReg r := by
  unfold State.writeReg State.readReg
  by_cases hr : r = 0#5
  · simp [hr]
  · by_cases hd : rd = 0#5
    · subst hd
      simp [hr]
    · by_cases h : r = rd
      · subst h
        simp [hr]
      · have hne : rd.toNat ≠ r.toNat := fun e => h (BitVec.eq_of_toNat_eq e.symm)
        simp [hr, hd, h, hne]

/-- A write never touches the slot of x0. -/
theorem State.writeReg_slot0 (rd : RegIx) (v : Word) : (s.writeReg rd v).regs[0] = s.regs[0] := by
  unfold State.writeReg
  split
  · rfl
  · rename_i h
    have : rd.toNat ≠ 0 := fun e => h (BitVec.eq_of_toNat_eq e)
    simp [this]

end Sys2Proof.Machine
end

