-- ==== Sys2Proof/Laws/Ops.lean ====
section
/-! SUPPORT. What each shared operation can do, said once: reads, writes, the ends of a meaning. -/

namespace Sys2Proof.Machine

/-! ## The addresses of an access -/

@[simp] theorem span_zero (a : Word) : span a 0 = [] := rfl

theorem mem_span {a e : Word} {n : Nat} : e ∈ span a n ↔ ∃ k, k < n ∧ e = a + BitVec.ofNat 32 k := by
  simp [span, eq_comm]

theorem span_succ (a : Word) (n : Nat) : span a (n + 1) = a :: span (a + 1#32) n := by
  simp only [span, List.range_succ_eq_map, List.map_cons, List.map_map]
  congr 1
  · simp
  · apply List.map_congr_left
    intro k _
    simp only [Function.comp]
    rw [BitVec.add_assoc]
    congr 1
    apply BitVec.eq_of_toNat_eq
    simp
    omega

@[simp] theorem mem_span_one {a e : Word} : e ∈ span a 1 ↔ e = a := by simp [span_succ]

/-- The addresses of one access are distinct. -/
theorem not_mem_span_next {a : Word} {n : Nat} (hn : n < 4294967296) : a ∉ span (a + 1#32) n := by
  rw [mem_span]
  rintro ⟨k, hk, he⟩
  have h := congrArg BitVec.toNat he
  simp only [BitVec.toNat_add, BitVec.toNat_ofNat] at h
  omega

theorem toNat_lt_addressSpace (a : Word) : a.toNat < Config.addressSpace := a.isLt

theorem toNat_ne_of_ne {a b : Word} (h : a ≠ b) : a.toNat ≠ b.toNat := fun e => h (BitVec.eq_of_toNat_eq e)

/-! ## Reads -/

theorem State.read8_ok {s : State} {a : Word} {b : Byte} : s.read8 a = .ok b ↔ s.byteAt a = some b := by
  unfold State.read8
  cases s.byteAt a <;> simp

theorem State.read8_absent {s : State} {a e : Word} : s.read8 a = .absent e ↔ e = a ∧ s.byteAt a = none := by
  unfold State.read8
  cases s.byteAt a <;> simp [eq_comm]

/-- Two backed bytes read as one halfword, the lower address least significant. -/
theorem State.read16_of_bytes {s : State} {a : Word} {b0 b1 : Byte} (h0 : s.byteAt a = some b0)
    (h1 : s.byteAt (a + 1#32) = some b1) : s.read16 a = .ok (b1 ++ b0) := by
  simp [State.read16, State.read8, h0, h1]

/-- Four backed bytes read as one word, the lowest address least significant. -/
theorem State.read32_of_bytes {s : State} {a : Word} {b0 b1 b2 b3 : Byte} (h0 : s.byteAt a = some b0)
    (h1 : s.byteAt (a + 1#32) = some b1) (h2 : s.byteAt (a + 2#32) = some b2)
    (h3 : s.byteAt (a + 3#32) = some b3) : s.read32 a = .ok ((b3 ++ b2) ++ (b1 ++ b0)) := by
  have e : a + 2#32 + 1#32 = a + 3#32 := by rw [BitVec.add_assoc]; rfl
  simp [State.read32, State.read16_of_bytes h0 h1,
    State.read16_of_bytes (s := s) h2 (by rw [e]; exact h3)]

/-- A read that answers an address answers one that holds no cell. -/
theorem State.read16_absent_byte {s : State} {a e : Word} (h : s.read16 a = .absent e) :
    s.byteAt e = none := by
  unfold State.read16 at h
  split at h
  · rename_i he
    cases h
    rw [State.read8_absent] at he
    exact he.1 ▸ he.2
  · split at h
    · rename_i he
      cases h
      rw [State.read8_absent] at he
      exact he.1 ▸ he.2
    · cases h

theorem State.read32_absent_byte {s : State} {a e : Word} (h : s.read32 a = .absent e) :
    s.byteAt e = none := by
  unfold State.read32 at h
  split at h
  · rename_i he
    cases h
    exact State.read16_absent_byte he
  · split at h
    · rename_i he
      cases h
      exact State.read16_absent_byte he
    · cases h

/-- Reads depend on the memory only. -/
theorem State.read32_congr {s t : State} (h : t.mem = s.mem) (a : Word) : t.read32 a = s.read32 a := by
  simp only [State.read32, State.read16, State.read8, State.byteAt, h]

/-! ## Writes -/

/-- The state a write leaves, whether or not it was cut short. -/
def WriteResult.state (r : WriteResult) : State :=
  match r with
  | .stored t => t
  | .full t _ => t

@[simp] theorem WriteResult.state_stored (t : State) : (WriteResult.stored t).state = t := rfl
@[simp] theorem WriteResult.state_full (t : State) (a : Word) : (WriteResult.full t a).state = t := rfl

/-- All that `write8` can do (R45). -/
theorem State.write8_cases (s : State) (a : Word) (v : Byte) :
    ((s.byteAt a).isSome = true ∧ s.write8 a v =
      .stored { s with pendingFault := s.flagAfterWrite a, mem := s.mem.write a.toNat v }) ∨
    (s.byteAt a = none ∧ s.atCapacity = true ∧
      s.write8 a v = .full { s with pendingFault := s.flagAfterWrite a } a) ∨
    (s.byteAt a = none ∧ s.atCapacity = false ∧ s.write8 a v =
      .stored { s with pendingFault := s.flagAfterWrite a, mem := s.mem.write a.toNat v,
                       fill := s.fill + 1 }) := by
  have hb : ({ s with pendingFault := s.flagAfterWrite a } : State).byteAt a = s.byteAt a := rfl
  have hc : ({ s with pendingFault := s.flagAfterWrite a } : State).atCapacity = s.atCapacity := rfl
  unfold State.write8
  simp only [hb, hc]
  cases h : s.byteAt a with
  | some b => simp
  | none => cases hcap : s.atCapacity <;> simp

/-- What no write changes, and how it changes memory and flag: the part of a write that does not depend on
whether it was cut short. -/
structure WriteFrame (s t : State) (addrs : List Word) : Prop where
  regs : t.regs = s.regs
  pc : t.pc = s.pc
  codeBoundary : t.codeBoundary = s.codeBoundary
  run : t.run = s.run
  memCapacity : t.memCapacity = s.memCapacity
  readOther : ∀ b : Nat, (∀ e ∈ addrs, b ≠ e.toNat) → t.mem.read b = s.mem.read b
  keepsCells : ∀ b : Nat, (s.mem.read b).isSome = true → (t.mem.read b).isSome = true
  keepsFlag : s.pendingFault = true → t.pendingFault = true
  flagFrom : t.pendingFault = true → s.pendingFault = true ∨ ∃ e ∈ addrs, e.toNat < s.codeBoundary
  fillLe : s.fill ≤ t.fill
  keepsWf : s.mem.wf = true → t.mem.wf = true
  fillCounts : s.mem.wf = true → t.fill - s.fill = t.mem.length - s.mem.length ∧ s.mem.length ≤ t.mem.length
  keepsCapacity : ∀ c, s.memCapacity = some c → s.fill ≤ c → t.fill ≤ c

theorem WriteFrame.refl (s : State) (addrs : List Word) : WriteFrame s s addrs where
  regs := rfl
  pc := rfl
  codeBoundary := rfl
  run := rfl
  memCapacity := rfl
  readOther := fun _ _ => rfl
  keepsCells := fun _ h => h
  keepsFlag := id
  flagFrom := .inl
  fillLe := Nat.le_refl _
  keepsWf := id
  fillCounts := fun _ => by simp
  keepsCapacity := fun _ _ h => h

theorem WriteFrame.trans {s t u : State} {xs ys : List Word} (h : WriteFrame s t xs) (h' : WriteFrame t u ys) :
    WriteFrame s u (xs ++ ys) where
  regs := h'.regs.trans h.regs
  pc := h'.pc.trans h.pc
  codeBoundary := h'.codeBoundary.trans h.codeBoundary
  run := h'.run.trans h.run
  memCapacity := h'.memCapacity.trans h.memCapacity
  readOther := fun b hb =>
    (h'.readOther b fun e he => hb e (List.mem_append_right _ he)).trans
      (h.readOther b fun e he => hb e (List.mem_append_left _ he))
  keepsCells := fun b hb => h'.keepsCells b (h.keepsCells b hb)
  keepsFlag := fun hf => h'.keepsFlag (h.keepsFlag hf)
  flagFrom := fun hf => by
    rcases h'.flagFrom hf with h1 | ⟨e, he, hlt⟩
    · rcases h.flagFrom h1 with h2 | ⟨e, he, hlt⟩
      · exact .inl h2
      · exact .inr ⟨e, List.mem_append_left _ he, hlt⟩
    · exact .inr ⟨e, List.mem_append_right _ he, h.codeBoundary ▸ hlt⟩
  fillLe := Nat.le_trans h.fillLe h'.fillLe
  keepsWf := fun hw => h'.keepsWf (h.keepsWf hw)
  fillCounts := fun hw => by
    have h1 := h.fillCounts hw
    have h2 := h'.fillCounts (h.keepsWf hw)
    have h3 := h.fillLe
    have h4 := h'.fillLe
    omega
  keepsCapacity := fun c hc hf => h'.keepsCapacity c (h.memCapacity ▸ hc) (h.keepsCapacity c hc hf)

theorem State.flagAfterWrite_iff (s : State) (a : Word) :
    s.flagAfterWrite a = true ↔ s.pendingFault = true ∨ a.toNat < s.codeBoundary := by
  simp [State.flagAfterWrite, State.belowBoundary]

/-- The frame of `write8`, whatever it answers. -/
theorem State.write8_frame (s : State) (a : Word) (v : Byte) : WriteFrame s (s.write8 a v).state [a] := by
  have hread : ∀ b : Nat, (∀ e ∈ [a], b ≠ e.toNat) →
      (s.mem.write a.toNat v).read b = s.mem.read b := fun b hb =>
    Memory.read_write_other _ (hb a (by simp)) v
  have hflag : s.flagAfterWrite a = true → s.pendingFault = true ∨ ∃ e ∈ [a], e.toNat < s.codeBoundary := by
    simp [State.flagAfterWrite_iff]
  have hkeep : s.pendingFault = true → s.flagAfterWrite a = true := fun h =>
    (State.flagAfterWrite_iff s a).2 (.inl h)
  rcases State.write8_cases s a v with ⟨hb, h⟩ | ⟨hb, hc, h⟩ | ⟨hb, hc, h⟩
  · rw [h]
    refine ⟨rfl, rfl, rfl, rfl, rfl, hread, fun b hb' => Memory.isSome_read_write _ _ b v hb', hkeep, hflag,
      Nat.le_refl _, fun hw => Memory.wf_write v hw (toNat_lt_addressSpace a), fun hw => ?_, fun c _ hf => hf⟩
    have := Memory.length_write (a := a.toNat) v hw
    simp only [State.byteAt] at hb
    simp [this, hb]
  · rw [h]
    exact ⟨rfl, rfl, rfl, rfl, rfl, fun b _ => rfl, fun b hb' => hb', hkeep, hflag, Nat.le_refl _,
      fun hw => hw, fun _ => by simp, fun c _ hf => hf⟩
  · rw [h]
    refine ⟨rfl, rfl, rfl, rfl, rfl, hread, fun b hb' => Memory.isSome_read_write _ _ b v hb', hkeep, hflag,
      Nat.le_succ _, fun hw => Memory.wf_write v hw (toNat_lt_addressSpace a), fun hw => ?_, fun c hcap _ => ?_⟩
    · have := Memory.length_write (a := a.toNat) v hw
      simp only [State.byteAt] at hb
      simp [this, hb]
    · simp only [State.atCapacity, hcap, decide_eq_false_iff_not] at hc
      show s.fill + 1 ≤ c
      omega

/-- The frame of a multi-byte write, whatever it answers. -/
theorem State.writeBytes_frame (s : State) (a : Word) (bs : List Byte) :
    WriteFrame s (s.writeBytes a bs).state (span a bs.length) := by
  induction bs generalizing s a with
  | nil => exact WriteFrame.refl s _
  | cons b rest ih =>
    have h8 := State.write8_frame s a b
    simp only [List.length_cons, span_succ]
    unfold State.writeBytes
    cases h : s.write8 a b with
    | stored t =>
      rw [h] at h8
      exact h8.trans (ih t (a + 1#32))
    | full t e =>
      rw [h] at h8
      simpa using h8.trans (WriteFrame.refl t (span (a + 1#32) rest.length))

/-- A write that ran to its end has stored its byte. -/
theorem State.write8_stored_byte {s t : State} {a : Word} {v : Byte} (h : s.write8 a v = .stored t) :
    t.byteAt a = some v := by
  rcases State.write8_cases s a v with ⟨_, h'⟩ | ⟨_, _, h'⟩ | ⟨_, _, h'⟩ <;> rw [h'] at h <;> cases h <;>
    simp [State.byteAt]

/-- A write that was cut short names an address without a cell, at capacity. -/
theorem State.write8_full {s t : State} {a e : Word} {v : Byte} (h : s.write8 a v = .full t e) :
    e = a ∧ t.byteAt e = none ∧ t.mem = s.mem ∧ t.fill = s.fill ∧ s.atCapacity = true := by
  rcases State.write8_cases s a v with ⟨_, h'⟩ | ⟨hb, hc, h'⟩ | ⟨_, _, h'⟩ <;> rw [h'] at h <;> cases h
  exact ⟨rfl, hb, rfl, rfl, hc⟩

theorem State.writeBytes_full {s t : State} {a e : Word} {bs : List Byte} (h : s.writeBytes a bs = .full t e) :
    t.byteAt e = none ∧ ∃ c, s.memCapacity = some c ∧ c ≤ t.fill := by
  induction bs generalizing s a with
  | nil => simp [State.writeBytes] at h
  | cons b rest ih =>
    unfold State.writeBytes at h
    cases h8 : s.write8 a b with
    | stored u =>
      rw [h8] at h
      have hf := State.write8_frame s a b
      rw [h8] at hf
      obtain ⟨h1, c, h2, h3⟩ := ih h
      exact ⟨h1, c, hf.memCapacity ▸ h2, h3⟩
    | full u e' =>
      rw [h8] at h
      cases h
      obtain ⟨_, h1, _, h2, h3⟩ := State.write8_full h8
      refine ⟨h1, ?_⟩
      unfold State.atCapacity at h3
      split at h3
      · cases h3
      · rename_i c hc
        exact ⟨c, hc, by simpa [h2] using h3⟩

/-- `memWrite8` and `memWrite32` as byte lists of 1 and 4. -/
theorem State.memWrite8_frame (s : State) (a v : Word) : WriteFrame s (s.memWrite8 a v).state (span a 1) := by
  rw [show span a 1 = [a] by simp [span_succ]]
  exact State.write8_frame s a (byteOf v 0)

theorem State.memWrite32_frame (s : State) (a v : Word) : WriteFrame s (s.memWrite32 a v).state (span a 4) :=
  State.writeBytes_frame s a (bytesOf v)

/-! ## The load primitive -/

theorem State.place8_mem (s : State) (a : Word) (v : Byte) : (s.place8 a v).mem = s.mem.write a.toNat v := by
  unfold State.place8
  split <;> rfl

/-- Placing bytes keeps the canonical form. -/
theorem State.placeBytes_wf (s : State) (a : Word) (bs : List Byte) (h : s.mem.wf = true) :
    (s.placeBytes a bs).mem.wf = true := by
  induction bs generalizing s a with
  | nil => exact h
  | cons b rest ih =>
    refine ih _ _ ?_
    rw [State.place8_mem]
    exact Memory.wf_write b h (toNat_lt_addressSpace a)

end Sys2Proof.Machine
end

