-- ==== Sys2Proof/Laws/Boot.lean ====
section
/-! SUPPORT. What the load sequence leaves in memory, and what placing a word at the pc leaves there. -/

namespace Sys2Proof.Machine

/-! ## The image -/

theorem read_imageCells (a : Nat) (img : List Byte) (b : Nat) :
    (imageCells a img).read b = if a ≤ b then img[b - a]? else none := by
  induction img generalizing a with
  | nil => simp [imageCells, Memory.read, Memory.unlisted]
  | cons x rest ih =>
    simp only [imageCells, Memory.read, ih]
    by_cases h : a = b
    · subst h
      simp
    · by_cases h2 : a ≤ b
      · rw [if_neg h, if_pos (by omega), if_pos h2, show b - a = (b - (a + 1)) + 1 by omega]
        simp
      · rw [if_neg h, if_neg (by omega), if_neg h2]

@[simp] theorem length_imageCells (a : Nat) (img : List Byte) : (imageCells a img).length = img.length := by
  induction img generalizing a with
  | nil => rfl
  | cons x rest ih => simp [imageCells, ih]

theorem risesFrom_imageCells (a : Nat) (img : List Byte) (h : a + img.length ≤ Config.addressSpace) :
    (imageCells a img).risesFrom a = true := by
  induction img generalizing a with
  | nil => rfl
  | cons x rest ih =>
    simp only [List.length_cons] at h
    have := ih (a + 1) (by omega)
    simp only [imageCells, Memory.risesFrom, this, Bool.and_true, Bool.and_eq_true, decide_eq_true_eq]
    omega

/-- After load the image bytes stand from address 0, and beside them only the sentinel of an empty image. -/
theorem read_loadedCells (img : List Byte) (a : Nat) :
    (loadedCells img).read a =
      if a < img.length then img[a]? else if img = [] ∧ a = 0 then some 0#8 else none := by
  cases img with
  | nil => simp [loadedCells, Memory.read, Config.sentinelByte, Memory.unlisted, eq_comm]
  | cons x rest =>
    simp only [loadedCells, read_imageCells]
    by_cases h : a < (x :: rest).length
    · simp
    · rw [if_neg h]
      simp only [List.length_cons] at h
      simp
      omega

theorem length_loadedCells (img : List Byte) : (loadedCells img).length = max img.length 1 := by
  cases img with
  | nil => rfl
  | cons x rest => simp [loadedCells]

/-- The memory after load is in canonical form. -/
theorem wf_loadedCells {img : List Byte} (h : img.length ≤ Config.addressSpace) :
    (loadedCells img).wf = true := by
  cases img with
  | nil => rfl
  | cons x rest => exact risesFrom_imageCells 0 _ (by omega)

/-- `State.reset` is the load sequence of the empty image, at the capacity of log entry 1. -/
theorem loadedState_empty : loadedState Config.resetCapacity [] = State.reset := by
  simp [loadedState, State.reset, loadedCells, startRun, Config.resetCapacity]

/-! ## A placed word -/

theorem State.byteAt_place8 (s : State) (a : Word) (v : Byte) (b : Word) :
    (s.place8 a v).byteAt b = if b = a then some v else s.byteAt b := by
  simp only [State.byteAt, State.place8_mem, Memory.read_write]
  by_cases h : b = a
  · simp [h]
  · simp [h, toNat_ne_of_ne h]

@[simp] theorem State.place8_pc (s : State) (a : Word) (v : Byte) : (s.place8 a v).pc = s.pc := by
  unfold State.place8
  split <;> rfl

@[simp] theorem State.placeBytes_pc (s : State) (a : Word) (bs : List Byte) :
    (s.placeBytes a bs).pc = s.pc := by
  induction bs generalizing s a with
  | nil => rfl
  | cons b rest ih => simp only [State.placeBytes, ih, State.place8_pc]

/-- A placed word's bytes stand at rising addresses modulo 2^32. -/
theorem State.byteAt_placeBytes_word (s : State) (a w : Word) (k : Nat) (hk : k < 4) :
    (s.placeBytes a (bytesOf w)).byteAt (a + BitVec.ofNat 32 k) = some (byteOf w k) := by
  simp only [bytesOf, State.placeBytes, State.byteAt_place8]
  have : k = 0 ∨ k = 1 ∨ k = 2 ∨ k = 3 := by omega
  rcases this with rfl | rfl | rfl | rfl <;> simp [BitVec.add_assoc]

end Sys2Proof.Machine
end

