-- ==== Sys2Proof/Laws/Encoding.lean ====
section
/-! SUPPORT. The bits of the encoders and of the fields the decoder takes, so that no later proof unfolds a
concatenation. -/

namespace Sys2Proof

variable (imm12 : BitVec 12) (imm20 : BitVec 20) (off13 : BitVec 13) (off21 : BitVec 21)
variable (f7 op : BitVec 7) (f3 : BitVec 3) (rd rs1 rs2 : RegIx) (w : Word) (k : Nat)

/-! ## Bits of a field of the word -/

theorem getLsbD_immSOf : (immSOf w).getLsbD k =
    if k < 5 then w.getLsbD (7 + k) else if k < 12 then w.getLsbD (20 + k) else false := by
  change BitVec.getLsbD (w := 7 + 5) (w.extractLsb' 25 7 ++ w.extractLsb' 7 5) k = _
  simp only [BitVec.getLsbD_append, BitVec.getLsbD_extractLsb']
  grind

theorem getLsbD_immBOf : (immBOf w).getLsbD k =
    if k < 1 then false else if k < 5 then w.getLsbD (7 + k) else if k < 11 then w.getLsbD (20 + k)
    else if k < 12 then w.getLsbD 7 else if k < 13 then w.getLsbD 31 else false := by
  unfold immBOf
  change BitVec.getLsbD (w := 1 + 1 + 6 + 4 + 1) _ k = _
  simp only [BitVec.getLsbD_append, BitVec.getLsbD_extractLsb']
  grind

theorem getLsbD_immJOf : (immJOf w).getLsbD k =
    if k < 1 then false else if k < 11 then w.getLsbD (20 + k) else if k < 12 then w.getLsbD 20
    else if k < 20 then w.getLsbD k else if k < 21 then w.getLsbD 31 else false := by
  unfold immJOf
  change BitVec.getLsbD (w := 1 + 8 + 1 + 10 + 1) _ k = _
  simp only [BitVec.getLsbD_append, BitVec.getLsbD_extractLsb']
  grind

/-! ## Bits of an encoded word -/

theorem getLsbD_encodeU : (encodeU imm20 rd op).getLsbD k =
    if k < 7 then op.getLsbD k else if k < 12 then rd.getLsbD (k - 7) else imm20.getLsbD (k - 12) := by
  change BitVec.getLsbD (w := 20 + 5 + 7) (imm20 ++ rd ++ op) k = _
  simp only [BitVec.getLsbD_append]
  grind

theorem getLsbD_encodeJ : (encodeJ off21 rd op).getLsbD k =
    if k < 7 then op.getLsbD k else if k < 12 then rd.getLsbD (k - 7)
    else if k < 20 then off21.getLsbD k else if k < 21 then off21.getLsbD 11
    else if k < 31 then off21.getLsbD (k - 20) else if k < 32 then off21.getLsbD 20 else false := by
  unfold encodeJ
  change BitVec.getLsbD (w := 1 + 10 + 1 + 8 + 5 + 7) _ k = _
  simp only [BitVec.getLsbD_append, BitVec.getLsbD_extractLsb']
  grind

theorem getLsbD_encodeI : (encodeI imm12 rs1 f3 rd op).getLsbD k =
    if k < 7 then op.getLsbD k else if k < 12 then rd.getLsbD (k - 7)
    else if k < 15 then f3.getLsbD (k - 12) else if k < 20 then rs1.getLsbD (k - 15)
    else imm12.getLsbD (k - 20) := by
  change BitVec.getLsbD (w := 12 + 5 + 3 + 5 + 7) (imm12 ++ rs1 ++ f3 ++ rd ++ op) k = _
  simp only [BitVec.getLsbD_append]
  grind

theorem getLsbD_encodeS : (encodeS imm12 rs2 rs1 f3 op).getLsbD k =
    if k < 7 then op.getLsbD k else if k < 12 then imm12.getLsbD (k - 7)
    else if k < 15 then f3.getLsbD (k - 12) else if k < 20 then rs1.getLsbD (k - 15)
    else if k < 25 then rs2.getLsbD (k - 20) else imm12.getLsbD (k - 20) := by
  unfold encodeS
  change BitVec.getLsbD (w := 7 + 5 + 5 + 3 + 5 + 7) _ k = _
  simp only [BitVec.getLsbD_append, BitVec.getLsbD_extractLsb']
  grind

theorem getLsbD_encodeB : (encodeB off13 rs2 rs1 f3 op).getLsbD k =
    if k < 7 then op.getLsbD k else if k < 8 then off13.getLsbD 11
    else if k < 12 then off13.getLsbD (k - 7) else if k < 15 then f3.getLsbD (k - 12)
    else if k < 20 then rs1.getLsbD (k - 15) else if k < 25 then rs2.getLsbD (k - 20)
    else if k < 31 then off13.getLsbD (k - 20) else if k < 32 then off13.getLsbD 12 else false := by
  unfold encodeB
  change BitVec.getLsbD (w := 1 + 6 + 5 + 5 + 3 + 4 + 1 + 7) _ k = _
  simp only [BitVec.getLsbD_append, BitVec.getLsbD_extractLsb']
  grind

theorem getLsbD_encodeR : (encodeR f7 rs2 rs1 f3 rd op).getLsbD k =
    if k < 7 then op.getLsbD k else if k < 12 then rd.getLsbD (k - 7)
    else if k < 15 then f3.getLsbD (k - 12) else if k < 20 then rs1.getLsbD (k - 15)
    else if k < 25 then rs2.getLsbD (k - 20) else f7.getLsbD (k - 25) := by
  change BitVec.getLsbD (w := 7 + 5 + 5 + 3 + 5 + 7) (f7 ++ rs2 ++ rs1 ++ f3 ++ rd ++ op) k = _
  simp only [BitVec.getLsbD_append]
  grind

/-! ## Fields of an encoded word -/

theorem opcodeOf_encodeU : opcodeOf (encodeU imm20 rd op) = op := by
  apply BitVec.eq_of_getLsbD_eq
  intro k hk
  simp only [opcodeOf, BitVec.getLsbD_extractLsb', getLsbD_encodeU]
  grind

theorem rdOf_encodeU : rdOf (encodeU imm20 rd op) = rd := by
  apply BitVec.eq_of_getLsbD_eq
  intro k hk
  simp only [rdOf, BitVec.getLsbD_extractLsb', getLsbD_encodeU]
  grind

theorem immUOf_encodeU : immUOf (encodeU imm20 rd op) = imm20 := by
  apply BitVec.eq_of_getLsbD_eq
  intro k hk
  simp only [immUOf, BitVec.getLsbD_extractLsb', getLsbD_encodeU]
  grind

theorem opcodeOf_encodeJ : opcodeOf (encodeJ off21 rd op) = op := by
  apply BitVec.eq_of_getLsbD_eq
  intro k hk
  simp only [opcodeOf, BitVec.getLsbD_extractLsb', getLsbD_encodeJ]
  grind

theorem rdOf_encodeJ : rdOf (encodeJ off21 rd op) = rd := by
  apply BitVec.eq_of_getLsbD_eq
  intro k hk
  simp only [rdOf, BitVec.getLsbD_extractLsb', getLsbD_encodeJ]
  grind

theorem opcodeOf_encodeI : opcodeOf (encodeI imm12 rs1 f3 rd op) = op := by
  apply BitVec.eq_of_getLsbD_eq
  intro k hk
  simp only [opcodeOf, BitVec.getLsbD_extractLsb', getLsbD_encodeI]
  grind

theorem rdOf_encodeI : rdOf (encodeI imm12 rs1 f3 rd op) = rd := by
  apply BitVec.eq_of_getLsbD_eq
  intro k hk
  simp only [rdOf, BitVec.getLsbD_extractLsb', getLsbD_encodeI]
  grind

theorem funct3Of_encodeI : funct3Of (encodeI imm12 rs1 f3 rd op) = f3 := by
  apply BitVec.eq_of_getLsbD_eq
  intro k hk
  simp only [funct3Of, BitVec.getLsbD_extractLsb', getLsbD_encodeI]
  grind

theorem rs1Of_encodeI : rs1Of (encodeI imm12 rs1 f3 rd op) = rs1 := by
  apply BitVec.eq_of_getLsbD_eq
  intro k hk
  simp only [rs1Of, BitVec.getLsbD_extractLsb', getLsbD_encodeI]
  grind

theorem immIOf_encodeI : immIOf (encodeI imm12 rs1 f3 rd op) = imm12 := by
  apply BitVec.eq_of_getLsbD_eq
  intro k hk
  simp only [immIOf, BitVec.getLsbD_extractLsb', getLsbD_encodeI]
  grind

theorem opcodeOf_encodeS : opcodeOf (encodeS imm12 rs2 rs1 f3 op) = op := by
  apply BitVec.eq_of_getLsbD_eq
  intro k hk
  simp only [opcodeOf, BitVec.getLsbD_extractLsb', getLsbD_encodeS]
  grind

theorem funct3Of_encodeS : funct3Of (encodeS imm12 rs2 rs1 f3 op) = f3 := by
  apply BitVec.eq_of_getLsbD_eq
  intro k hk
  simp only [funct3Of, BitVec.getLsbD_extractLsb', getLsbD_encodeS]
  grind

theorem rs1Of_encodeS : rs1Of (encodeS imm12 rs2 rs1 f3 op) = rs1 := by
  apply BitVec.eq_of_getLsbD_eq
  intro k hk
  simp only [rs1Of, BitVec.getLsbD_extractLsb', getLsbD_encodeS]
  grind

theorem rs2Of_encodeS : rs2Of (encodeS imm12 rs2 rs1 f3 op) = rs2 := by
  apply BitVec.eq_of_getLsbD_eq
  intro k hk
  simp only [rs2Of, BitVec.getLsbD_extractLsb', getLsbD_encodeS]
  grind

theorem opcodeOf_encodeB : opcodeOf (encodeB off13 rs2 rs1 f3 op) = op := by
  apply BitVec.eq_of_getLsbD_eq
  intro k hk
  simp only [opcodeOf, BitVec.getLsbD_extractLsb', getLsbD_encodeB]
  grind

theorem funct3Of_encodeB : funct3Of (encodeB off13 rs2 rs1 f3 op) = f3 := by
  apply BitVec.eq_of_getLsbD_eq
  intro k hk
  simp only [funct3Of, BitVec.getLsbD_extractLsb', getLsbD_encodeB]
  grind

theorem rs1Of_encodeB : rs1Of (encodeB off13 rs2 rs1 f3 op) = rs1 := by
  apply BitVec.eq_of_getLsbD_eq
  intro k hk
  simp only [rs1Of, BitVec.getLsbD_extractLsb', getLsbD_encodeB]
  grind

theorem rs2Of_encodeB : rs2Of (encodeB off13 rs2 rs1 f3 op) = rs2 := by
  apply BitVec.eq_of_getLsbD_eq
  intro k hk
  simp only [rs2Of, BitVec.getLsbD_extractLsb', getLsbD_encodeB]
  grind

theorem opcodeOf_encodeR : opcodeOf (encodeR f7 rs2 rs1 f3 rd op) = op := by
  apply BitVec.eq_of_getLsbD_eq
  intro k hk
  simp only [opcodeOf, BitVec.getLsbD_extractLsb', getLsbD_encodeR]
  grind

theorem rdOf_encodeR : rdOf (encodeR f7 rs2 rs1 f3 rd op) = rd := by
  apply BitVec.eq_of_getLsbD_eq
  intro k hk
  simp only [rdOf, BitVec.getLsbD_extractLsb', getLsbD_encodeR]
  grind

theorem funct3Of_encodeR : funct3Of (encodeR f7 rs2 rs1 f3 rd op) = f3 := by
  apply BitVec.eq_of_getLsbD_eq
  intro k hk
  simp only [funct3Of, BitVec.getLsbD_extractLsb', getLsbD_encodeR]
  grind

theorem rs1Of_encodeR : rs1Of (encodeR f7 rs2 rs1 f3 rd op) = rs1 := by
  apply BitVec.eq_of_getLsbD_eq
  intro k hk
  simp only [rs1Of, BitVec.getLsbD_extractLsb', getLsbD_encodeR]
  grind

theorem rs2Of_encodeR : rs2Of (encodeR f7 rs2 rs1 f3 rd op) = rs2 := by
  apply BitVec.eq_of_getLsbD_eq
  intro k hk
  simp only [rs2Of, BitVec.getLsbD_extractLsb', getLsbD_encodeR]
  grind

theorem shamtOf_encodeR : shamtOf (encodeR f7 rs2 rs1 f3 rd op) = rs2 := by
  apply BitVec.eq_of_getLsbD_eq
  intro k hk
  simp only [shamtOf, BitVec.getLsbD_extractLsb', getLsbD_encodeR]
  grind

theorem immSOf_encodeS : immSOf (encodeS imm12 rs2 rs1 f3 op) = imm12 := by
  apply BitVec.eq_of_getLsbD_eq
  intro k hk
  simp only [getLsbD_immSOf, getLsbD_encodeS]
  grind

/-- An even offset survives the encoding (R75). -/
theorem immBOf_encodeB (h : off13.getLsbD 0 = false) : immBOf (encodeB off13 rs2 rs1 f3 op) = off13 := by
  apply BitVec.eq_of_getLsbD_eq
  intro k hk
  simp only [getLsbD_immBOf, getLsbD_encodeB]
  grind

/-- An even offset survives the encoding (R77). -/
theorem immJOf_encodeJ (h : off21.getLsbD 0 = false) : immJOf (encodeJ off21 rd op) = off21 := by
  apply BitVec.eq_of_getLsbD_eq
  intro k hk
  simp only [getLsbD_immJOf, getLsbD_encodeJ]
  grind

theorem bit30Of_encodeR : bit30Of (encodeR f7 rs2 rs1 f3 rd op) = f7.getLsbD 5 := by
  simp only [bit30Of, getLsbD_encodeR]
  grind

/-! ## Inversion of the decoder -/

variable {w} in
theorem decodeBranch_cases {i : Instr} (h : decodeBranch w = .ok i) :
    ((funct3Of w = 0#3 ∧ i = .beq (rs1Of w) (rs2Of w) (immBOf w)) ∨
      (funct3Of w = 1#3 ∧ i = .bne (rs1Of w) (rs2Of w) (immBOf w)) ∨
      (funct3Of w = 4#3 ∧ i = .blt (rs1Of w) (rs2Of w) (immBOf w)) ∨
      (funct3Of w = 5#3 ∧ i = .bge (rs1Of w) (rs2Of w) (immBOf w)) ∨
      (funct3Of w = 6#3 ∧ i = .bltu (rs1Of w) (rs2Of w) (immBOf w)) ∨
      (funct3Of w = 7#3 ∧ i = .bgeu (rs1Of w) (rs2Of w) (immBOf w))) := by
  unfold decodeBranch at h
  repeat' split at h
  all_goals simp_all

variable {w} in
theorem decodeLoad_cases {i : Instr} (h : decodeLoad w = .ok i) :
    ((funct3Of w = 0#3 ∧ i = .lb (rdOf w) (rs1Of w) (immIOf w)) ∨
      (funct3Of w = 2#3 ∧ i = .lw (rdOf w) (rs1Of w) (immIOf w)) ∨
      (funct3Of w = 4#3 ∧ i = .lbu (rdOf w) (rs1Of w) (immIOf w)) ∨
      (funct3Of w = 5#3 ∧ i = .lhu (rdOf w) (rs1Of w) (immIOf w))) := by
  unfold decodeLoad at h
  repeat' split at h
  all_goals simp_all

variable {w} in
theorem decodeStore_cases {i : Instr} (h : decodeStore w = .ok i) :
    ((funct3Of w = 0#3 ∧ i = .sb (rs1Of w) (rs2Of w) (immSOf w)) ∨
      (funct3Of w = 2#3 ∧ i = .sw (rs1Of w) (rs2Of w) (immSOf w))) := by
  unfold decodeStore at h
  repeat' split at h
  all_goals simp_all

variable {w} in
theorem decodeOpImm_cases {i : Instr} (h : decodeOpImm w = .ok i) :
    ((funct3Of w = 0#3 ∧ i = .addi (rdOf w) (rs1Of w) (immIOf w)) ∨
      (funct3Of w = 1#3 ∧ i = .slli (rdOf w) (rs1Of w) (shamtOf w)) ∨
      (funct3Of w = 4#3 ∧ i = .xori (rdOf w) (rs1Of w) (immIOf w)) ∨
      (funct3Of w = 5#3 ∧ bit30Of w = true ∧ i = .srai (rdOf w) (rs1Of w) (shamtOf w)) ∨
      (funct3Of w = 5#3 ∧ bit30Of w = false ∧ i = .srli (rdOf w) (rs1Of w) (shamtOf w)) ∨
      (funct3Of w = 6#3 ∧ i = .ori (rdOf w) (rs1Of w) (immIOf w)) ∨
      (funct3Of w = 7#3 ∧ i = .andi (rdOf w) (rs1Of w) (immIOf w))) := by
  unfold decodeOpImm at h
  repeat' split at h
  all_goals simp_all

variable {w} in
theorem decodeOp_cases {i : Instr} (h : decodeOp w = .ok i) :
    (funct3Of w = 0#3 ∧ ((bit30Of w = true ∧ i = .sub (rdOf w) (rs1Of w) (rs2Of w)) ∨
      (bit30Of w = false ∧ i = .add (rdOf w) (rs1Of w) (rs2Of w)))) := by
  unfold decodeOp at h
  repeat' split at h
  all_goals simp_all

variable {w} in
/-- All that the decoder can answer with an instruction (R82). -/
theorem decodeWord_cases {i : Instr} (h : decodeWord w = .ok i) :
    (opcodeOf w = opLui ∧ i = .lui (rdOf w) (immUOf w)) ∨
    (opcodeOf w = opAuipc ∧ i = .auipc (rdOf w) (immUOf w)) ∨
    (opcodeOf w = opJal ∧ i = .jal (rdOf w) (immJOf w)) ∨
    (opcodeOf w = opJalr ∧ funct3Of w = 0#3 ∧ i = .jalr (rdOf w) (rs1Of w) (immIOf w)) ∨
    (opcodeOf w = opBranch ∧ ((funct3Of w = 0#3 ∧ i = .beq (rs1Of w) (rs2Of w) (immBOf w)) ∨
      (funct3Of w = 1#3 ∧ i = .bne (rs1Of w) (rs2Of w) (immBOf w)) ∨
      (funct3Of w = 4#3 ∧ i = .blt (rs1Of w) (rs2Of w) (immBOf w)) ∨
      (funct3Of w = 5#3 ∧ i = .bge (rs1Of w) (rs2Of w) (immBOf w)) ∨
      (funct3Of w = 6#3 ∧ i = .bltu (rs1Of w) (rs2Of w) (immBOf w)) ∨
      (funct3Of w = 7#3 ∧ i = .bgeu (rs1Of w) (rs2Of w) (immBOf w)))) ∨
    (opcodeOf w = opLoad ∧ ((funct3Of w = 0#3 ∧ i = .lb (rdOf w) (rs1Of w) (immIOf w)) ∨
      (funct3Of w = 2#3 ∧ i = .lw (rdOf w) (rs1Of w) (immIOf w)) ∨
      (funct3Of w = 4#3 ∧ i = .lbu (rdOf w) (rs1Of w) (immIOf w)) ∨
      (funct3Of w = 5#3 ∧ i = .lhu (rdOf w) (rs1Of w) (immIOf w)))) ∨
    (opcodeOf w = opStore ∧ ((funct3Of w = 0#3 ∧ i = .sb (rs1Of w) (rs2Of w) (immSOf w)) ∨
      (funct3Of w = 2#3 ∧ i = .sw (rs1Of w) (rs2Of w) (immSOf w)))) ∨
    (opcodeOf w = opOpImm ∧ ((funct3Of w = 0#3 ∧ i = .addi (rdOf w) (rs1Of w) (immIOf w)) ∨
      (funct3Of w = 1#3 ∧ i = .slli (rdOf w) (rs1Of w) (shamtOf w)) ∨
      (funct3Of w = 4#3 ∧ i = .xori (rdOf w) (rs1Of w) (immIOf w)) ∨
      (funct3Of w = 5#3 ∧ bit30Of w = true ∧ i = .srai (rdOf w) (rs1Of w) (shamtOf w)) ∨
      (funct3Of w = 5#3 ∧ bit30Of w = false ∧ i = .srli (rdOf w) (rs1Of w) (shamtOf w)) ∨
      (funct3Of w = 6#3 ∧ i = .ori (rdOf w) (rs1Of w) (immIOf w)) ∨
      (funct3Of w = 7#3 ∧ i = .andi (rdOf w) (rs1Of w) (immIOf w)))) ∨
    (opcodeOf w = opOp ∧ (funct3Of w = 0#3 ∧ ((bit30Of w = true ∧ i = .sub (rdOf w) (rs1Of w) (rs2Of w)) ∨
      (bit30Of w = false ∧ i = .add (rdOf w) (rs1Of w) (rs2Of w))))) := by
  unfold decodeWord at h
  by_cases h1 : opcodeOf w = opLui
  · rw [if_pos h1] at h
    cases h
    exact .inl ⟨h1, rfl⟩
  rw [if_neg h1] at h
  refine .inr ?_
  by_cases h2 : opcodeOf w = opAuipc
  · rw [if_pos h2] at h
    cases h
    exact .inl ⟨h2, rfl⟩
  rw [if_neg h2] at h
  refine .inr ?_
  by_cases h3 : opcodeOf w = opJal
  · rw [if_pos h3] at h
    cases h
    exact .inl ⟨h3, rfl⟩
  rw [if_neg h3] at h
  refine .inr ?_
  by_cases h4 : opcodeOf w = opJalr
  · rw [if_pos h4] at h
    split at h
    · rename_i hf
      cases h
      exact .inl ⟨h4, hf, rfl⟩
    · cases h
  rw [if_neg h4] at h
  refine .inr ?_
  by_cases h5 : opcodeOf w = opBranch
  · rw [if_pos h5] at h
    exact .inl ⟨h5, decodeBranch_cases h⟩
  rw [if_neg h5] at h
  refine .inr ?_
  by_cases h6 : opcodeOf w = opLoad
  · rw [if_pos h6] at h
    exact .inl ⟨h6, decodeLoad_cases h⟩
  rw [if_neg h6] at h
  refine .inr ?_
  by_cases h7 : opcodeOf w = opStore
  · rw [if_pos h7] at h
    exact .inl ⟨h7, decodeStore_cases h⟩
  rw [if_neg h7] at h
  refine .inr ?_
  by_cases h8 : opcodeOf w = opOpImm
  · rw [if_pos h8] at h
    exact .inl ⟨h8, decodeOpImm_cases h⟩
  rw [if_neg h8] at h
  refine .inr ?_
  by_cases h9 : opcodeOf w = opOp
  · rw [if_pos h9] at h
    exact ⟨h9, decodeOp_cases h⟩
  rw [if_neg h9] at h
  cases h

/-! ## Bytes of a word -/

/-- The four bytes of a word, put back in memory order, are the word (R46, R49). -/
theorem wordOfBytes_byteOf : wordOfBytes (byteOf w 0) (byteOf w 1) (byteOf w 2) (byteOf w 3) = w := by
  apply BitVec.eq_of_getLsbD_eq
  intro k hk
  unfold wordOfBytes byteOf
  change BitVec.getLsbD (w := 8 + 8 + 8 + 8) _ k = _
  simp only [BitVec.getLsbD_append, BitVec.getLsbD_extractLsb']
  grind

/-- Decoding a word's bytes, whatever follows them, is decoding the word (R70). -/
theorem decode_bytesOf (rest : List Byte) : decode (bytesOf w ++ rest) = decodeWord w := by
  simp only [bytesOf, List.cons_append, decode, wordOfBytes_byteOf]

end Sys2Proof
end

