-- ==== Sys2Proof/Laws/Operands.lean ====
section
/-! SUPPORT. What the operand forms compute and how a meaning ends, said once. -/

namespace Sys2Proof.Machine

/-! ## Immediates as integers -/

theorem toInt_signExtend32 {n : Nat} (x : BitVec n) (h : n ≤ 32) : (x.signExtend 32).toInt = x.toInt :=
  BitVec.toInt_signExtend_of_le h

/-- A sign-extended field is its signed value modulo 2^32 (R10). -/
theorem toNat_signExtend32 {n : Nat} (x : BitVec n) (h : n ≤ 32) :
    ((x.signExtend 32).toNat : Int) = x.toInt % 4294967296 := by
  rw [← toInt_signExtend32 x h, BitVec.toInt_eq_toNat_cond]
  have := (x.signExtend 32).isLt
  split <;> omega

/-- The upper immediate is the 20-bit field times 4096 (R76). -/
theorem toNat_immU (f : BitVec 20) : (immU f).toNat = f.toNat * 4096 := by
  unfold immU
  change BitVec.toNat (w := 20 + 12) (f ++ 0#12) = _
  rw [BitVec.toNat_append]
  simp [Nat.shiftLeft_eq]

/-- The pc plus a sign-extended offset is the relative target (R150, R170). -/
theorem State.isRelativePc_add {n : Nat} (s : State) (off : BitVec n) (h : n ≤ 32) :
    s.isRelativePc off.toInt (s.pc + off.signExtend 32) := by
  unfold State.isRelativePc
  rw [BitVec.toNat_add]
  have := toNat_signExtend32 off h
  push_cast
  omega

/-- The effective address of a load is the one R130 describes, and the only one. -/
theorem State.isEffectiveAddr_iff (s : State) (rs1 : RegIx) (imm : BitVec 12) (ea : Word) :
    s.isEffectiveAddr rs1 imm ea ↔ ea = s.loadAddr rs1 imm := by
  have h := toNat_signExtend32 imm (by decide)
  unfold State.isEffectiveAddr State.loadAddr immI
  constructor
  · intro he
    apply BitVec.eq_of_toNat_eq
    rw [BitVec.toNat_add]
    omega
  · rintro rfl
    rw [BitVec.toNat_add]
    push_cast
    omega

theorem State.storeAddr_eq_loadAddr (s : State) (rs1 : RegIx) (imm : BitVec 12) :
    s.storeAddr rs1 imm = s.loadAddr rs1 imm := rfl

/-- Clearing bit 0 (R140). -/
theorem toNat_and_not_one (x : Word) : (x &&& 0xFFFFFFFE#32).toNat = x.toNat - x.toNat % 2 := by
  have h : x &&& 0xFFFFFFFE#32 = (x >>> 1) <<< 1 := by
    apply BitVec.eq_of_getLsbD_eq
    intro k hk
    rw [show (0xFFFFFFFE#32) = (BitVec.allOnes 32 <<< 1) by decide, BitVec.getLsbD_and,
      BitVec.getLsbD_shiftLeft, BitVec.getLsbD_shiftLeft, BitVec.getLsbD_ushiftRight, BitVec.getLsbD_allOnes]
    cases k with
    | zero => simp
    | succ k => simp [hk, show 1 + k = k + 1 by omega, show k < 32 by omega]
  rw [h]
  simp [Nat.shiftLeft_eq, Nat.shiftRight_eq_div_pow]
  omega

/-! ## The ends of a meaning -/

/-- A register result (R21, R96): rd and pc change, nothing else. -/
theorem finishReg_spec (rd : RegIx) (v : Word) (s : State) :
    finishReg rd v s = .next (s.writeReg rd v).advance ∧
      s.wroteReg (s.writeReg rd v).advance rd v ∧ (s.writeReg rd v).advance.pc = s.pc + 4#32 ∧
      s.sameRest (s.writeReg rd v).advance :=
  ⟨rfl, fun r => by rw [State.advance_readReg, State.readReg_writeReg], by simp, by simp [State.sameRest]⟩

/-- A load ends as a register result or by SegmentationFault with nothing else changed. -/
theorem finishLoad_cases (inst : Word) (rd : RegIx) (r : ReadResult Word) (s : State) :
    (∃ v, r = .ok v ∧ finishLoad inst rd r s = finishReg rd v s) ∨
    (∃ a, r = .absent a ∧
      finishLoad inst rd r s = .next (s.raise (.segmentationFault s.pc (some inst) a))) := by
  cases r with
  | ok v => exact .inl ⟨v, rfl, rfl⟩
  | absent a => exact .inr ⟨a, rfl, rfl⟩

/-- A store ends advanced or by OutOfCapacity at the byte that found no cell. -/
theorem finishStore_cases (inst : Word) (r : WriteResult) :
    (∃ t, r = .stored t ∧ finishStore inst r = .next t.advance) ∨
    (∃ t a, r = .full t a ∧
      finishStore inst r = .next (t.raise (.outOfCapacity t.pc (some inst) a))) := by
  cases r with
  | stored t => exact .inl ⟨t, rfl, rfl⟩
  | full t a => exact .inr ⟨t, a, rfl, rfl⟩

/-- A branch changes the pc only. -/
theorem finishBranch_cases (b : Bool) (off : BitVec 13) (s : State) :
    (b = true ∧ finishBranch b off s = .next (s.jump (s.pc + immB off))) ∨
    (b = false ∧ finishBranch b off s = .next s.advance) := by
  cases b
  · exact .inr ⟨rfl, rfl⟩
  · exact .inl ⟨rfl, rfl⟩

end Sys2Proof.Machine
end

