-- ==== Sys2Proof/Laws/PerInstr.lean ====
section
/-! SUPPORT. The families of statements made once per instruction. `TableMatch`: the encoder writes the fixed
bits of the instruction's row of spec/opcode_table.json. -/

namespace Sys2Proof.Laws.TableMatch

/-- The `mask` of the instruction's row of spec/opcode_table.json. -/
def mask (i : Instr) : Word :=
  match i with
  | .lui _ _ => 0x0000007F#32
  | .auipc _ _ => 0x0000007F#32
  | .jal _ _ => 0x0000007F#32
  | .jalr _ _ _ => 0x0000707F#32
  | .beq _ _ _ => 0x0000707F#32
  | .bne _ _ _ => 0x0000707F#32
  | .blt _ _ _ => 0x0000707F#32
  | .bge _ _ _ => 0x0000707F#32
  | .bltu _ _ _ => 0x0000707F#32
  | .bgeu _ _ _ => 0x0000707F#32
  | .lb _ _ _ => 0x0000707F#32
  | .lw _ _ _ => 0x0000707F#32
  | .lbu _ _ _ => 0x0000707F#32
  | .lhu _ _ _ => 0x0000707F#32
  | .sb _ _ _ => 0x0000707F#32
  | .sw _ _ _ => 0x0000707F#32
  | .addi _ _ _ => 0x0000707F#32
  | .xori _ _ _ => 0x0000707F#32
  | .ori _ _ _ => 0x0000707F#32
  | .andi _ _ _ => 0x0000707F#32
  | .slli _ _ _ => 0x0000707F#32
  | .srli _ _ _ => 0x4000707F#32
  | .srai _ _ _ => 0x4000707F#32
  | .add _ _ _ => 0x4000707F#32
  | .sub _ _ _ => 0x4000707F#32

/-- The `match` of the instruction's row of spec/opcode_table.json. -/
def pattern (i : Instr) : Word :=
  match i with
  | .lui _ _ => 0x00000037#32
  | .auipc _ _ => 0x00000017#32
  | .jal _ _ => 0x0000006F#32
  | .jalr _ _ _ => 0x00000067#32
  | .beq _ _ _ => 0x00000063#32
  | .bne _ _ _ => 0x00001063#32
  | .blt _ _ _ => 0x00004063#32
  | .bge _ _ _ => 0x00005063#32
  | .bltu _ _ _ => 0x00006063#32
  | .bgeu _ _ _ => 0x00007063#32
  | .lb _ _ _ => 0x00000003#32
  | .lw _ _ _ => 0x00002003#32
  | .lbu _ _ _ => 0x00004003#32
  | .lhu _ _ _ => 0x00005003#32
  | .sb _ _ _ => 0x00000023#32
  | .sw _ _ _ => 0x00002023#32
  | .addi _ _ _ => 0x00000013#32
  | .xori _ _ _ => 0x00004013#32
  | .ori _ _ _ => 0x00006013#32
  | .andi _ _ _ => 0x00007013#32
  | .slli _ _ _ => 0x00001013#32
  | .srli _ _ _ => 0x00005013#32
  | .srai _ _ _ => 0x40005013#32
  | .add _ _ _ => 0x00000033#32
  | .sub _ _ _ => 0x40000033#32

/-- The word of the instruction matches its row. -/
def Statement (i : Instr) : Prop := encode i &&& mask i = pattern i

/-- Words that agree in each of their 32 bits are equal. -/
theorem word_ext {a b : Word} (h : ∀ k, k < 32 → a.getLsbD k = b.getLsbD k) : a = b :=
  BitVec.eq_of_getLsbD_eq fun k hk => h k hk

theorem lui (rd imm) : Statement (.lui rd imm) := by
  refine word_ext fun k hk => ?_
  simp only [BitVec.getLsbD_and, encode, mask, pattern, getLsbD_encodeU, opLui]
  interval_cases k <;> simp

theorem auipc (rd imm) : Statement (.auipc rd imm) := by
  refine word_ext fun k hk => ?_
  simp only [BitVec.getLsbD_and, encode, mask, pattern, getLsbD_encodeU, opAuipc]
  interval_cases k <;> simp

theorem jal (rd off) : Statement (.jal rd off) := by
  refine word_ext fun k hk => ?_
  simp only [BitVec.getLsbD_and, encode, mask, pattern, getLsbD_encodeJ, opJal]
  interval_cases k <;> simp

theorem jalr (rd rs1 imm) : Statement (.jalr rd rs1 imm) := by
  refine word_ext fun k hk => ?_
  simp only [BitVec.getLsbD_and, encode, mask, pattern, getLsbD_encodeI, opJalr]
  interval_cases k <;> simp

theorem beq (rs1 rs2 off) : Statement (.beq rs1 rs2 off) := by
  refine word_ext fun k hk => ?_
  simp only [BitVec.getLsbD_and, encode, mask, pattern, getLsbD_encodeB, opBranch]
  interval_cases k <;> simp

theorem bne (rs1 rs2 off) : Statement (.bne rs1 rs2 off) := by
  refine word_ext fun k hk => ?_
  simp only [BitVec.getLsbD_and, encode, mask, pattern, getLsbD_encodeB, opBranch]
  interval_cases k <;> simp

theorem blt (rs1 rs2 off) : Statement (.blt rs1 rs2 off) := by
  refine word_ext fun k hk => ?_
  simp only [BitVec.getLsbD_and, encode, mask, pattern, getLsbD_encodeB, opBranch]
  interval_cases k <;> simp

theorem bge (rs1 rs2 off) : Statement (.bge rs1 rs2 off) := by
  refine word_ext fun k hk => ?_
  simp only [BitVec.getLsbD_and, encode, mask, pattern, getLsbD_encodeB, opBranch]
  interval_cases k <;> simp

theorem bltu (rs1 rs2 off) : Statement (.bltu rs1 rs2 off) := by
  refine word_ext fun k hk => ?_
  simp only [BitVec.getLsbD_and, encode, mask, pattern, getLsbD_encodeB, opBranch]
  interval_cases k <;> simp

theorem bgeu (rs1 rs2 off) : Statement (.bgeu rs1 rs2 off) := by
  refine word_ext fun k hk => ?_
  simp only [BitVec.getLsbD_and, encode, mask, pattern, getLsbD_encodeB, opBranch]
  interval_cases k <;> simp

theorem lb (rd rs1 imm) : Statement (.lb rd rs1 imm) := by
  refine word_ext fun k hk => ?_
  simp only [BitVec.getLsbD_and, encode, mask, pattern, getLsbD_encodeI, opLoad]
  interval_cases k <;> simp

theorem lw (rd rs1 imm) : Statement (.lw rd rs1 imm) := by
  refine word_ext fun k hk => ?_
  simp only [BitVec.getLsbD_and, encode, mask, pattern, getLsbD_encodeI, opLoad]
  interval_cases k <;> simp

theorem lbu (rd rs1 imm) : Statement (.lbu rd rs1 imm) := by
  refine word_ext fun k hk => ?_
  simp only [BitVec.getLsbD_and, encode, mask, pattern, getLsbD_encodeI, opLoad]
  interval_cases k <;> simp

theorem lhu (rd rs1 imm) : Statement (.lhu rd rs1 imm) := by
  refine word_ext fun k hk => ?_
  simp only [BitVec.getLsbD_and, encode, mask, pattern, getLsbD_encodeI, opLoad]
  interval_cases k <;> simp

theorem sb (rs1 rs2 imm) : Statement (.sb rs1 rs2 imm) := by
  refine word_ext fun k hk => ?_
  simp only [BitVec.getLsbD_and, encode, mask, pattern, getLsbD_encodeS, opStore]
  interval_cases k <;> simp

theorem sw (rs1 rs2 imm) : Statement (.sw rs1 rs2 imm) := by
  refine word_ext fun k hk => ?_
  simp only [BitVec.getLsbD_and, encode, mask, pattern, getLsbD_encodeS, opStore]
  interval_cases k <;> simp

theorem addi (rd rs1 imm) : Statement (.addi rd rs1 imm) := by
  refine word_ext fun k hk => ?_
  simp only [BitVec.getLsbD_and, encode, mask, pattern, getLsbD_encodeI, opOpImm]
  interval_cases k <;> simp

theorem xori (rd rs1 imm) : Statement (.xori rd rs1 imm) := by
  refine word_ext fun k hk => ?_
  simp only [BitVec.getLsbD_and, encode, mask, pattern, getLsbD_encodeI, opOpImm]
  interval_cases k <;> simp

theorem ori (rd rs1 imm) : Statement (.ori rd rs1 imm) := by
  refine word_ext fun k hk => ?_
  simp only [BitVec.getLsbD_and, encode, mask, pattern, getLsbD_encodeI, opOpImm]
  interval_cases k <;> simp

theorem andi (rd rs1 imm) : Statement (.andi rd rs1 imm) := by
  refine word_ext fun k hk => ?_
  simp only [BitVec.getLsbD_and, encode, mask, pattern, getLsbD_encodeI, opOpImm]
  interval_cases k <;> simp

theorem slli (rd rs1 shamt) : Statement (.slli rd rs1 shamt) := by
  refine word_ext fun k hk => ?_
  simp only [BitVec.getLsbD_and, encode, mask, pattern, getLsbD_encodeR, opOpImm]
  interval_cases k <;> simp

theorem srli (rd rs1 shamt) : Statement (.srli rd rs1 shamt) := by
  refine word_ext fun k hk => ?_
  simp only [BitVec.getLsbD_and, encode, mask, pattern, getLsbD_encodeR, opOpImm]
  interval_cases k <;> simp

theorem srai (rd rs1 shamt) : Statement (.srai rd rs1 shamt) := by
  refine word_ext fun k hk => ?_
  simp only [BitVec.getLsbD_and, encode, mask, pattern, getLsbD_encodeR, opOpImm]
  interval_cases k <;> simp

theorem add (rd rs1 rs2) : Statement (.add rd rs1 rs2) := by
  refine word_ext fun k hk => ?_
  simp only [BitVec.getLsbD_and, encode, mask, pattern, getLsbD_encodeR, opOp]
  interval_cases k <;> simp

theorem sub (rd rs1 rs2) : Statement (.sub rd rs1 rs2) := by
  refine word_ext fun k hk => ?_
  simp only [BitVec.getLsbD_and, encode, mask, pattern, getLsbD_encodeR, opOp]
  interval_cases k <;> simp

end Sys2Proof.Laws.TableMatch
end

