-- ==== Sys2Proof/Laws/Pseudo.lean ====
section
/-! SUPPORT. What the halves of a 32-bit value in a two-instruction expansion are, and how an expansion runs. -/

namespace Sys2Proof.Machine

theorem toNat_hi20 (v : Word) : (hi20 v).toNat = (v.toNat + 2048) % 4294967296 / 4096 := by
  have : ((v.toNat + 2048) % 4294967296) / 4096 < 1048576 := by omega
  simp [hi20, BitVec.extractLsb'_toNat, Nat.shiftRight_eq_div_pow]
  omega

/-- The low half is the low 12 bits. -/
theorem toNat_lo12 (v : Word) : (lo12 v).toNat = v.toNat % 4096 := by
  have h := toNat_immU (hi20 v)
  have := (hi20 v).isLt
  simp only [lo12, BitVec.extractLsb'_toNat, BitVec.toNat_sub, Nat.shiftRight_zero]
  rw [h]
  omega

theorem lo12_eq_zero (v : Word) : lo12 v = 0#12 ↔ v.toNat % 4096 = 0 := by
  rw [← toNat_lo12, ← BitVec.toNat_inj]
  rfl

/-- The two halves add up to the value: the low one is sign-extended, and the high one makes up for it. -/
theorem hi20_add_lo12 (v : Word) : immU (hi20 v) + immI (lo12 v) = v := by
  apply BitVec.eq_of_toNat_eq
  have hs := toNat_signExtend32 (lo12 v) (by decide)
  rw [BitVec.toInt_eq_toNat_cond, toNat_lo12] at hs
  rw [BitVec.toNat_add, toNat_immU, toNat_hi20]
  unfold immI
  have := v.isLt
  split at hs <;> omega

/-- A value in the range of a 12-bit immediate is its low 12 bits sign-extended. -/
theorem immI_low12 {v : Word} (h : -2048 ≤ v.toInt ∧ v.toInt ≤ 2047) : immI (v.extractLsb' 0 12) = v := by
  apply BitVec.eq_of_toNat_eq
  have hs := toNat_signExtend32 (v.extractLsb' 0 12) (by decide)
  rw [BitVec.toInt_eq_toNat_cond, BitVec.extractLsb'_toNat] at hs
  rw [BitVec.toInt_eq_toNat_cond] at h
  unfold immI
  have := v.isLt
  simp only [Nat.shiftRight_zero] at hs
  split at hs <;> split at h <;> omega

@[simp] theorem execAll_nil (s : State) : execAll [] s = .next s := rfl

theorem execAll_cons_next {i : Instr} {is : List Instr} {s t : State} (h : exec i s = .next t) :
    execAll (i :: is) s = execAll is t := by
  simp only [execAll, h]

/-- An expansion of one instruction runs as that instruction. -/
theorem execAll_one (i : Instr) (s : State) : execAll [i] s = exec i s := by
  simp only [execAll]
  cases exec i s <;> rfl

end Sys2Proof.Machine
end

