-- ==== Sys2Proof/Laws/Step.lean ====
section
/-! SUPPORT. What a meaning and a step can do, said once; invariants follow by cases on these. -/

namespace Sys2Proof.Machine

/-- The ways `exec i s` answers `t`. -/
inductive ExecOutcome (i : Instr) (s t : State) : Prop where
  /-- A register result and a new pc: OP-IMM, OP, LUI, AUIPC, a load that found its bytes, JAL, JALR. -/
  | wrote (rd : RegIx) (v pc' : Word) (hrd : destReg i = some rd) (hs : storeSpan i s = none)
      (hpc : ¬ setsPc i s → pc' = s.pc + 4#32) (heven : i.wf = true → s.pc.getLsbD 0 = false → pc'.getLsbD 0 = false)
      (ht : t = (s.writeReg rd v).jump pc')
  /-- A branch, taken or not. -/
  | branched (pc' : Word) (hrd : destReg i = none) (hs : storeSpan i s = none)
      (hpc : ¬ setsPc i s → pc' = s.pc + 4#32) (heven : i.wf = true → s.pc.getLsbD 0 = false → pc'.getLsbD 0 = false)
      (ht : t = s.jump pc')
  /-- A load whose first absent byte is `a`. -/
  | segfaulted (a : Word) (hs : storeSpan i s = none) (ha : s.byteAt a = none)
      (hi : significantBits i = 0xFFFFFFFF#32)
      (ht : t = s.raise (.segmentationFault s.pc (some (encode i)) a))
  /-- The exit sentinel. -/
  | halted (rs1 : RegIx) (hi : i = .jalr 0#5 rs1 0#12) (h0 : s.readReg rs1 = 0#32)
      (ht : t = s.halt (s.readReg 10#5))
  /-- A store that completed. -/
  | stored (u : State) (hrd : destReg i = none) (hs : storeSpan i s ≠ none) (hn : ¬ setsPc i s)
      (hf : WriteFrame s u (storedBytes i s))
      (ht : t = u.advance)
  /-- A store cut short at byte `a`. -/
  | full (u : State) (a : Word) (c : Nat) (hrd : destReg i = none) (hs : storeSpan i s ≠ none)
      (hf : WriteFrame s u (storedBytes i s))
      (ha : u.byteAt a = none) (hc : s.memCapacity = some c) (hle : c ≤ u.fill)
      (hi : significantBits i = 0xFFFFFFFF#32)
      (ht : t = u.raise (.outOfCapacity s.pc (some (encode i)) a))

theorem even_add {a b : Word} (ha : a.getLsbD 0 = false) (hb : b.getLsbD 0 = false) :
    (a + b).getLsbD 0 = false := by
  simp only [BitVec.getLsbD, Nat.testBit_zero, decide_eq_false_iff_not, BitVec.toNat_add] at *
  omega

theorem even_nextPc {s : State} (h : s.pc.getLsbD 0 = false) : (s.pc + 4#32).getLsbD 0 = false :=
  even_add h rfl

theorem even_signExtend {n : Nat} {off : BitVec n} (hn : 0 < n) (h : off.getLsbD 0 = false) :
    (off.signExtend 32).getLsbD 0 = false := by
  rw [BitVec.getLsbD_signExtend, if_pos hn, h]
  rfl

theorem even_of_evenOffset {n : Nat} {off : BitVec n} (h : evenOffset off = true) : off.getLsbD 0 = false := by
  simpa [evenOffset] using h

theorem immI_eq_zero {imm : BitVec 12} (h : immI imm = 0#32) : imm = 0#12 := by
  have h1 := toInt_signExtend32 imm (by decide)
  rw [show imm.signExtend 32 = 0#32 from h] at h1
  apply BitVec.eq_of_toInt_eq
  simpa using h1.symm

section
variable {i : Instr} {s t : State} {rd rs1 rs2 : RegIx}

theorem finishReg_outcome {v : Word} (hrd : destReg i = some rd) (hs : storeSpan i s = none)
    (h : finishReg rd v s = .next t) : ExecOutcome i s t := by
  cases h
  refine .wrote rd v (s.pc + 4#32) hrd hs (fun _ => rfl) (fun _ => even_nextPc) ?_
  simp only [State.advance, State.jump, State.nextPc, State.writeReg_pc]

theorem finishLoad_outcome {r : ReadResult Word} (hrd : destReg i = some rd) (hs : storeSpan i s = none)
    (hi : significantBits i = 0xFFFFFFFF#32)
    (hr : ∀ a, r = .absent a → s.byteAt a = none)
    (h : finishLoad (encode i) rd r s = .next t) : ExecOutcome i s t := by
  rcases finishLoad_cases (encode i) rd r s with ⟨v, _, h'⟩ | ⟨a, ha, h'⟩
  · exact finishReg_outcome hrd hs (h'.symm.trans h)
  · rw [h'] at h
    cases h
    exact .segfaulted a hs (hr a ha) hi rfl

theorem finishBranch_outcome {b : Bool} {off : BitVec 13} (hrd : destReg i = none) (hs : storeSpan i s = none)
    (hset : b = true → setsPc i s) (hwf : i.wf = evenOffset off)
    (h : finishBranch b off s = .next t) : ExecOutcome i s t := by
  rcases finishBranch_cases b off s with ⟨hb, h'⟩ | ⟨hb, h'⟩ <;> rw [h'] at h <;> cases h
  · refine .branched _ hrd hs (fun hn => absurd (hset hb) hn) (fun hw hp => ?_) rfl
    exact even_add hp (even_signExtend (by decide) (even_of_evenOffset (hwf ▸ hw)))
  · exact .branched (s.pc + 4#32) hrd hs (fun _ => rfl) (fun _ => even_nextPc) rfl

theorem finishStore_outcome {r : WriteResult} (hrd : destReg i = none) (hs : storeSpan i s ≠ none) (hn : ¬ setsPc i s)
    (hf : WriteFrame s r.state (storedBytes i s))
    (hfull : ∀ u a, r = .full u a → u.byteAt a = none ∧ ∃ c, s.memCapacity = some c ∧ c ≤ u.fill)
    (hi : significantBits i = 0xFFFFFFFF#32)
    (h : finishStore (encode i) r = .next t) : ExecOutcome i s t := by
  rcases finishStore_cases (encode i) r with ⟨u, hr, h'⟩ | ⟨u, a, hr, h'⟩ <;> rw [h'] at h <;> cases h
  · subst hr
    exact .stored u hrd hs hn hf rfl
  · obtain ⟨ha, c, hc, hle⟩ := hfull u a hr
    subst hr
    simp only [WriteResult.state_full] at hf
    exact .full u a c hrd hs hf ha hc hle hi (by rw [hf.pc])

end

theorem map_absent {α β : Type} {f : α → β} {r : ReadResult α} {a : Word} (h : r.map f = .absent a) :
    r = .absent a := by
  cases r <;> simp_all [ReadResult.map]

theorem byteStore_full {s u : State} {a e v : Word} (h : s.memWrite8 a v = .full u e) :
    u.byteAt e = none ∧ ∃ c, s.memCapacity = some c ∧ c ≤ u.fill :=
  State.writeBytes_full (s := s) (a := a) (bs := [byteOf v 0]) <| by
    have h' : s.write8 a (byteOf v 0) = .full u e := h
    simp only [State.writeBytes, h']

/-- All that a meaning can do. -/
theorem exec_outcome {i : Instr} {s t : State} (h : exec i s = .next t) : ExecOutcome i s t := by
  cases i with
  | lui rd imm => exact finishReg_outcome rfl rfl h
  | auipc rd imm => exact finishReg_outcome rfl rfl h
  | addi rd rs1 imm => exact finishReg_outcome rfl rfl h
  | xori rd rs1 imm => exact finishReg_outcome rfl rfl h
  | ori rd rs1 imm => exact finishReg_outcome rfl rfl h
  | andi rd rs1 imm => exact finishReg_outcome rfl rfl h
  | slli rd rs1 sh => exact finishReg_outcome rfl rfl h
  | srli rd rs1 sh => exact finishReg_outcome rfl rfl h
  | srai rd rs1 sh => exact finishReg_outcome rfl rfl h
  | add rd rs1 rs2 => exact finishReg_outcome rfl rfl h
  | sub rd rs1 rs2 => exact finishReg_outcome rfl rfl h
  | jal rd off =>
    cases h
    refine .wrote rd s.nextPc (s.pc + immJ off) rfl rfl (fun hn => absurd trivial hn) (fun hw hp => ?_) rfl
    exact even_add hp (even_signExtend (by decide) (even_of_evenOffset hw))
  | jalr rd rs1 imm =>
    simp only [exec, execJalr] at h
    split at h
    · rename_i hsent
      cases h
      simp only [State.isSentinel, Bool.and_eq_true, beq_iff_eq] at hsent
      obtain ⟨⟨⟨rfl, himm⟩, h0⟩, _⟩ := hsent
      cases immI_eq_zero himm
      exact .halted rs1 rfl h0 rfl
    · cases h
      refine .wrote rd s.nextPc (s.jalrTarget rs1 imm) rfl rfl (fun hn => absurd trivial hn) (fun _ _ => ?_) rfl
      simp [State.jalrTarget]
  | beq rs1 rs2 off => exact finishBranch_outcome rfl rfl (by simp [condEq, setsPc]) rfl h
  | bne rs1 rs2 off => exact finishBranch_outcome rfl rfl (by simp [condNe, setsPc]) rfl h
  | blt rs1 rs2 off => exact finishBranch_outcome rfl rfl (by simp [condLt, setsPc, BitVec.slt]) rfl h
  | bge rs1 rs2 off => exact finishBranch_outcome rfl rfl (by simp [condGe, setsPc, BitVec.slt]) rfl h
  | bltu rs1 rs2 off => exact finishBranch_outcome rfl rfl (by simp [condLtu, setsPc, BitVec.ult]) rfl h
  | bgeu rs1 rs2 off => exact finishBranch_outcome rfl rfl (by simp [condGeu, setsPc, BitVec.ult]) rfl h
  | lb rd rs1 imm =>
    exact finishLoad_outcome rfl rfl rfl
      (fun a ha => by rw [map_absent ha |> State.read8_absent.1 |>.1]; exact (State.read8_absent.1 (map_absent ha)).2) h
  | lbu rd rs1 imm =>
    exact finishLoad_outcome rfl rfl rfl
      (fun a ha => by rw [map_absent ha |> State.read8_absent.1 |>.1]; exact (State.read8_absent.1 (map_absent ha)).2) h
  | lhu rd rs1 imm =>
    exact finishLoad_outcome rfl rfl rfl (fun a ha => State.read16_absent_byte (map_absent ha)) h
  | lw rd rs1 imm => exact finishLoad_outcome rfl rfl rfl (fun a ha => State.read32_absent_byte ha) h
  | sb rs1 rs2 imm =>
    exact finishStore_outcome rfl nofun id (State.memWrite8_frame s _ _) (fun u a hu => byteStore_full hu) rfl h
  | sw rs1 rs2 imm =>
    exact finishStore_outcome rfl nofun id (State.memWrite32_frame s _ _) (fun u a hu => State.writeBytes_full hu) rfl h

/-- No meaning faults or refuses. -/
theorem exec_next (i : Instr) (s : State) : ∃ t, exec i s = .next t := by
  have hload : ∀ (w : Word) rd (r : ReadResult Word), ∃ t, finishLoad w rd r s = .next t := by
    intro w rd r
    cases r <;> exact ⟨_, rfl⟩
  have hstore : ∀ (w : Word) (r : WriteResult), ∃ t, finishStore w r = .next t := by
    intro w r
    cases r <;> exact ⟨_, rfl⟩
  have hbranch : ∀ (b : Bool) off, ∃ t, finishBranch b off s = .next t := by
    intro b off
    cases b <;> exact ⟨_, rfl⟩
  cases i with
  | jalr rd rs1 imm =>
    simp only [exec, execJalr]
    split <;> exact ⟨_, rfl⟩
  | beq _ _ _ => exact hbranch _ _
  | bne _ _ _ => exact hbranch _ _
  | blt _ _ _ => exact hbranch _ _
  | bge _ _ _ => exact hbranch _ _
  | bltu _ _ _ => exact hbranch _ _
  | bgeu _ _ _ => exact hbranch _ _
  | lb _ _ _ => exact hload _ _ _
  | lw _ _ _ => exact hload _ _ _
  | lbu _ _ _ => exact hload _ _ _
  | lhu _ _ _ => exact hload _ _ _
  | sb _ _ _ => exact hstore _ _
  | sw _ _ _ => exact hstore _ _
  | lui _ _ => exact ⟨_, rfl⟩
  | auipc _ _ => exact ⟨_, rfl⟩
  | jal _ _ => exact ⟨_, rfl⟩
  | addi _ _ _ => exact ⟨_, rfl⟩
  | xori _ _ _ => exact ⟨_, rfl⟩
  | ori _ _ _ => exact ⟨_, rfl⟩
  | andi _ _ _ => exact ⟨_, rfl⟩
  | slli _ _ _ => exact ⟨_, rfl⟩
  | srli _ _ _ => exact ⟨_, rfl⟩
  | srai _ _ _ => exact ⟨_, rfl⟩
  | add _ _ _ => exact ⟨_, rfl⟩
  | sub _ _ _ => exact ⟨_, rfl⟩

/-- All that a step can do when it answers a next state (R90, R208). -/
theorem step_cases {s t : State} (h : step s = .next t) :
    s.run = .running ∧
    ((s.pendingFault = true ∧ t = s.raise (.illegalWrite s.pc)) ∨
     (s.fetches ∧ ∃ a, s.fetch = .absent a ∧ t = s.raise (.segmentationFault s.pc none a)) ∨
     (∃ w why, s.fetchesWord w ∧ decodeWord w = .unknown why ∧
       t = s.raise (.unknownInstruction s.pc w (opcodeOf w))) ∨
     (∃ w i, s.fetchesWord w ∧ decodeWord w = .ok i ∧ exec i s = .next t)) := by
  unfold step cycle at h
  cases hr : s.run with
  | halted v => simp [hr] at h
  | faulted r => simp [hr] at h
  | running =>
    refine ⟨rfl, ?_⟩
    simp only [hr] at h
    unfold runningCycle at h
    cases hp : s.pendingFault with
    | true =>
      rw [hp, if_pos rfl] at h
      cases h
      exact .inl ⟨rfl, rfl⟩
    | false =>
      rw [hp, if_neg (by decide)] at h
      refine .inr ?_
      cases hf : s.fetch with
      | absent a =>
        simp only [hf] at h
        cases h
        exact .inl ⟨⟨hr, hp⟩, a, rfl, rfl⟩
      | ok w =>
        simp only [hf] at h
        unfold runWord at h
        cases hd : decodeWord w with
        | ok i =>
          simp only [hd] at h
          exact .inr (.inr ⟨w, i, ⟨⟨hr, hp⟩, hf⟩, hd, h⟩)
        | unknown why =>
          simp only [hd] at h
          cases h
          exact .inr (.inl ⟨w, why, ⟨⟨hr, hp⟩, hf⟩, hd, rfl⟩)

end Sys2Proof.Machine
end

