-- ==== Sys2Proof/Tests/Slice0.lean ====
section
/-! SUPPORT. The model's own tests, and for each statement with hypotheses a witness that meets them. Expected
values are those of spec/95_test_vectors.md (the section is named), unless a comment says otherwise. -/

namespace Sys2Proof.Tests

open Sys2Proof Sys2Proof.Machine

/-! ## WellFormed refuses odd offsets (30_encoding.md R75, R77) -/

theorem test_illformed_jal : (.jal 1#5 3#21 : Instr).wf = false := by decide
theorem test_illformed_beq : (.beq 1#5 2#5 0x1FFF#13 : Instr).wf = false := by decide
theorem test_illformed_bne : (.bne 1#5 2#5 0x1FFF#13 : Instr).wf = false := by decide
theorem test_illformed_blt : (.blt 1#5 2#5 0x1FFF#13 : Instr).wf = false := by decide
theorem test_illformed_bge : (.bge 1#5 2#5 0x1FFF#13 : Instr).wf = false := by decide
theorem test_illformed_bltu : (.bltu 1#5 2#5 0x1FFF#13 : Instr).wf = false := by decide
theorem test_illformed_bgeu : (.bgeu 1#5 2#5 0x1FFF#13 : Instr).wf = false := by decide
theorem test_wellformed_jal : (.jal 1#5 0x100000#21 : Instr).wf = true := by decide
theorem test_wellformed_beq : (.beq 1#5 2#5 0x1000#13 : Instr).wf = true := by decide

/-! ## Decoding: words of section 2 written out bit by bit -/

/-- LUI x1, 0x12345. -/
theorem test_decode_lui : decodeWord 0b00010010001101000101000010110111#32 = .ok (.lui 1#5 0x12345#20) := by decide
/-- AUIPC x1, 0x80000. -/
theorem test_decode_auipc : decodeWord 0b10000000000000000000000010010111#32 = .ok (.auipc 1#5 0x80000#20) := by decide
/-- JAL x1, -0x200. -/
theorem test_decode_jal : decodeWord 0b11100000000111111111000011101111#32 = .ok (.jal 1#5 (BitVec.ofInt 21 (-0x200))) := by decide
/-- JAL x5, +0xFFFFE. -/
theorem test_decode_jal_largest : decodeWord 0b01111111111111111111001011101111#32 = .ok (.jal 5#5 0xFFFFE#21) := by decide
/-- JALR x2, 4(x2). -/
theorem test_decode_jalr : decodeWord 0b00000000010000010000000101100111#32 = .ok (.jalr 2#5 2#5 4#12) := by decide
/-- BEQ x0, x0, +4094. -/
theorem test_decode_beq : decodeWord 0b01111110000000000000111111100011#32 = .ok (.beq 0#5 0#5 4094#13) := by decide
/-- BNE x1, x2, -16. -/
theorem test_decode_bne : decodeWord 0b11111110001000001001100011100011#32 = .ok (.bne 1#5 2#5 (BitVec.ofInt 13 (-16))) := by decide
/-- BLT x1, x2, +8. -/
theorem test_decode_blt : decodeWord 0b00000000001000001100010001100011#32 = .ok (.blt 1#5 2#5 8#13) := by decide
/-- BGE x1, x2, +8. -/
theorem test_decode_bge : decodeWord 0b00000000001000001101010001100011#32 = .ok (.bge 1#5 2#5 8#13) := by decide
/-- BLTU x1, x2, +8. -/
theorem test_decode_bltu : decodeWord 0b00000000001000001110010001100011#32 = .ok (.bltu 1#5 2#5 8#13) := by decide
/-- BGEU x1, x2, +8. -/
theorem test_decode_bgeu : decodeWord 0b00000000001000001111010001100011#32 = .ok (.bgeu 1#5 2#5 8#13) := by decide
/-- LB x1, -1(x3). -/
theorem test_decode_lb : decodeWord 0b11111111111100011000000010000011#32 = .ok (.lb 1#5 3#5 (BitVec.ofInt 12 (-1))) := by decide
/-- LW x1, 1(x3). -/
theorem test_decode_lw : decodeWord 0b00000000000100011010000010000011#32 = .ok (.lw 1#5 3#5 1#12) := by decide
/-- LBU x1, 0(x3). -/
theorem test_decode_lbu : decodeWord 0b00000000000000011100000010000011#32 = .ok (.lbu 1#5 3#5 0#12) := by decide
/-- LHU x1, 2(x3). -/
theorem test_decode_lhu : decodeWord 0b00000000001000011101000010000011#32 = .ok (.lhu 1#5 3#5 2#12) := by decide
/-- SB x2, -1(x3). -/
theorem test_decode_sb : decodeWord 0b11111110001000011000111110100011#32 = .ok (.sb 3#5 2#5 (BitVec.ofInt 12 (-1))) := by decide
/-- SW x2, 2047(x3). -/
theorem test_decode_sw : decodeWord 0b01111110001000011010111110100011#32 = .ok (.sw 3#5 2#5 2047#12) := by decide
/-- ADDI x1, x2, -2048. -/
theorem test_decode_addi : decodeWord 0b10000000000000010000000010010011#32 = .ok (.addi 1#5 2#5 (BitVec.ofInt 12 (-2048))) := by decide
/-- XORI x1, x2, 0x7FF. -/
theorem test_decode_xori : decodeWord 0b01111111111100010100000010010011#32 = .ok (.xori 1#5 2#5 0x7FF#12) := by decide
/-- ORI x1, x2, 0xF0. -/
theorem test_decode_ori : decodeWord 0b00001111000000010110000010010011#32 = .ok (.ori 1#5 2#5 0xF0#12) := by decide
/-- ANDI x1, x2, -16. -/
theorem test_decode_andi : decodeWord 0b11111111000000010111000010010011#32 = .ok (.andi 1#5 2#5 (BitVec.ofInt 12 (-16))) := by decide
/-- SLLI x1, x2, 31. -/
theorem test_decode_slli : decodeWord 0b00000001111100010001000010010011#32 = .ok (.slli 1#5 2#5 31#5) := by decide
/-- SRLI x1, x2, 4 with bit 25 set. -/
theorem test_decode_srli : decodeWord 0b00000010010000010101000010010011#32 = .ok (.srli 1#5 2#5 4#5) := by decide
/-- SRAI x1, x2, 31. -/
theorem test_decode_srai : decodeWord 0b01000001111100010101000010010011#32 = .ok (.srai 1#5 2#5 31#5) := by decide
/-- ADD with funct7 0000001. -/
theorem test_decode_add : decodeWord 0b00000010001100010000000010110011#32 = .ok (.add 1#5 2#5 3#5) := by decide
/-- SUB x1, x2, x3. -/
theorem test_decode_sub : decodeWord 0b01000000001100010000000010110011#32 = .ok (.sub 1#5 2#5 3#5) := by decide

/-! Words with no semantics (section 2, R84): each group by its name. -/

theorem test_unknown_slti : decodeWord 0b00000000000100010010000010010011#32 = .unknown .opImmFunct3 := by decide
theorem test_unknown_sh : decodeWord 0b00000000001000011001000000100011#32 = .unknown .storeFunct3 := by decide
theorem test_unknown_lh : decodeWord 0b00000000000000011001000010000011#32 = .unknown .loadFunct3 := by decide
theorem test_unknown_jalr_funct3 : decodeWord 0b00000000000000010001000011100111#32 = .unknown .jalrFunct3 := by decide
theorem test_unknown_branch_funct3 : decodeWord 0b00000000001000001010010001100011#32 = .unknown .branchFunct3 := by decide
theorem test_unknown_sll : decodeWord 0b00000000001100010001000010110011#32 = .unknown .opFunct3 := by decide
theorem test_unknown_zero_word : decodeWord 0b00000000000000000000000000000000#32 = .unknown .unlistedOpcode := by decide
theorem test_unknown_ecall : decodeWord 0b00000000000000000000000001110011#32 = .unknown .unlistedOpcode := by decide
theorem test_unknown_fence : decodeWord 0b00001111111100000000000000001111#32 = .unknown .unlistedOpcode := by decide
theorem test_unknown_ones_word : decodeWord 0b11111111111111111111111111111111#32 = .unknown .unlistedOpcode := by decide
theorem test_unknown_low_bits : decodeWord 0b00000000000000000000000000000001#32 = .unknown .unlistedOpcode := by decide
theorem test_decode_three_bytes : decode [0x13#8, 0x05#8, 0x50#8] = .unknown .tooFewBytes := by decide

/-- The table numbers a word as its u32 value; the first byte in memory is its low byte (R70). -/
theorem test_decode_little_endian :
    decode [0x13#8, 0x05#8, 0x50#8, 0x00#8] = .ok (.addi 10#5 0#5 5#12) := by decide
theorem test_decodeTableWord : decodeTableWord 32 0x0021A0A3 = some (.sw 3#5 2#5 1#12) := by decide

/-! ## Encoding: one word a format, from section 2 -/

theorem test_encode_U : encode (.lui 1#5 0x12345#20) = 0x123450B7#32 := by decide
theorem test_encode_J : encode (.jal 0#5 (BitVec.ofInt 21 (-256))) = 0xF01FF06F#32 := by decide
theorem test_encode_I : encode (.jalr 0#5 5#5 (BitVec.ofInt 12 (-4))) = 0xFFC28067#32 := by decide
theorem test_encode_S : encode (.sw 3#5 2#5 (BitVec.ofInt 12 (-2))) = 0xFE21AF23#32 := by decide
theorem test_encode_B : encode (.beq 0#5 0#5 (BitVec.ofInt 13 (-4096))) = 0x80000063#32 := by decide
theorem test_encode_I_shift : encode (.srai 1#5 2#5 4#5) = 0x40415093#32 := by decide
theorem test_encode_R : encode (.sub 2#5 2#5 2#5) = 0x40210133#32 := by decide

/-! ## Single steps from the start state of section 2 -/

/-- The start state of section 2: pc 0x100, boundary 0x100, the registers and cells listed. -/
def start (regs : List (RegIx × Word)) (mem : Memory) : State :=
  regs.foldl (fun s p => s.writeReg p.1 p.2)
    { State.reset with pc := 0x100#32, codeBoundary := 0x100, mem := mem, fill := mem.length }

/-- One step of the start state with a word at its pc. -/
def after (w : Nat) (regs : List (RegIx × Word)) (mem : Memory) : Option State :=
  match step ((start regs mem).withFetchWord 32 w) with
  | .next t => some t
  | .fault _ => none
  | .refused _ => none

/-- Register `r` and the pc after the step. -/
def regPc (r : RegIx) (t : Option State) : Option (Word × Word) := t.map fun t => (t.readReg r, t.pc)

/-- The bytes at some addresses, the flag and the pc after the step. -/
def bytesFlagPc (as : List Word) (t : Option State) : Option (List (Option Byte) × Bool × Word) :=
  t.map fun t => (as.map t.byteAt, t.pendingFault, t.pc)

/-- How the run stands and the pc after the step. -/
def runPc (t : Option State) : Option (RunState × Word) := t.map fun t => (t.run, t.pc)

theorem test_step_addi_wraps : regPc 2#5 (after 0x00110113 [(2#5, 0xFFFFFFFF#32)] []) = some (0x0#32, 0x104#32) := by
  decide
theorem test_step_addi_x0 : regPc 0#5 (after 0x00510013 [(2#5, 0x1#32)] []) = some (0x0#32, 0x104#32) := by
  decide
theorem test_step_xori : regPc 1#5 (after 0x7FF14093 [(2#5, 0xFFFF#32)] []) = some (0xF800#32, 0x104#32) := by
  decide
theorem test_step_ori : regPc 1#5 (after 0x80016093 [(2#5, 0x1#32)] []) = some (0xFFFFF801#32, 0x104#32) := by
  decide
theorem test_step_andi : regPc 1#5 (after 0xFF017093 [(2#5, 0x89ABCDEF#32)] []) = some (0x89ABCDE0#32, 0x104#32) := by
  decide
theorem test_step_slli : regPc 1#5 (after 0x40411093 [(2#5, 0x1#32)] []) = some (0x10#32, 0x104#32) := by
  decide
theorem test_step_srli : regPc 1#5 (after 0x01F15093 [(2#5, 0x80000000#32)] []) = some (0x1#32, 0x104#32) := by
  decide
theorem test_step_srai : regPc 1#5 (after 0x40415093 [(2#5, 0x80000010#32)] []) = some (0xF8000001#32, 0x104#32) := by
  decide
theorem test_step_srai_0 : regPc 1#5 (after 0x40015093 [(2#5, 0x80000000#32)] []) = some (0x80000000#32, 0x104#32) := by
  decide
theorem test_step_add : regPc 1#5 (after 0x003100B3 [(2#5, 0x7FFFFFFF#32), (3#5, 0x1#32)] []) = some (0x80000000#32, 0x104#32) := by
  decide
theorem test_step_sub : regPc 1#5 (after 0x403100B3 [(2#5, 0x0#32), (3#5, 0x1#32)] []) = some (0xFFFFFFFF#32, 0x104#32) := by
  decide
theorem test_step_lui : regPc 1#5 (after 0xFFFFF0B7 [] []) = some (0xFFFFF000#32, 0x104#32) := by
  decide
theorem test_step_auipc : regPc 1#5 (after 0xFFFFF097 [] []) = some (0xFFFFF100#32, 0x104#32) := by
  decide
theorem test_step_jal : regPc 5#5 (after 0x800002EF [] []) = some (0x104#32, 0xFFF00100#32) := by
  decide
theorem test_step_jal_x0 : regPc 0#5 (after 0xF01FF06F [] []) = some (0x0#32, 0x0#32) := by
  decide
theorem test_step_jalr_same_register : regPc 2#5 (after 0x00410167 [(2#5, 0x400#32)] []) = some (0x104#32, 0x404#32) := by
  decide
theorem test_step_jalr_clears_bit_0 : regPc 1#5 (after 0x003100E7 [(2#5, 0x400#32)] []) = some (0x104#32, 0x402#32) := by
  decide
theorem test_step_beq : regPc 0#5 (after 0x00208863 [(1#5, 0x5#32), (2#5, 0x5#32)] []) = some (0x0#32, 0x110#32) := by
  decide
theorem test_step_bne : regPc 0#5 (after 0xFE2098E3 [(1#5, 0x5#32), (2#5, 0x6#32)] []) = some (0x0#32, 0xF0#32) := by
  decide
theorem test_step_blt_signed : regPc 0#5 (after 0x0020C463 [(1#5, 0xFFFFFFFF#32), (2#5, 0x1#32)] []) = some (0x0#32, 0x108#32) := by
  decide
theorem test_step_blt_equal : regPc 0#5 (after 0x0020C463 [(1#5, 0x7#32), (2#5, 0x7#32)] []) = some (0x0#32, 0x104#32) := by
  decide
theorem test_step_bge_signed : regPc 0#5 (after 0x0020D463 [(1#5, 0xFFFFFFFF#32), (2#5, 0x1#32)] []) = some (0x0#32, 0x104#32) := by
  decide
theorem test_step_bge_equal : regPc 0#5 (after 0x0020D463 [(1#5, 0x7#32), (2#5, 0x7#32)] []) = some (0x0#32, 0x108#32) := by
  decide
theorem test_step_bltu_unsigned : regPc 0#5 (after 0x0020E463 [(1#5, 0xFFFFFFFF#32), (2#5, 0x1#32)] []) = some (0x0#32, 0x104#32) := by
  decide
theorem test_step_bltu_less : regPc 0#5 (after 0x0020E463 [(1#5, 0x0#32), (2#5, 0x80000000#32)] []) = some (0x0#32, 0x108#32) := by
  decide
theorem test_step_bgeu_unsigned : regPc 0#5 (after 0x0020F463 [(1#5, 0xFFFFFFFF#32), (2#5, 0x1#32)] []) = some (0x0#32, 0x108#32) := by
  decide

/-- The memory of section 2.4. -/
def loadMem : Memory := [(0x200, 0x80#8), (0x201, 0x7F#8), (0x202, 0xFF#8), (0x203, 0x01#8)]

theorem test_step_lb : regPc 1#5 (after 0x00018083 [(3#5, 0x200#32)] loadMem) = some (0xFFFFFF80#32, 0x104#32) := by
  decide
theorem test_step_lb_minus_1 : regPc 1#5 (after 0xFFF18083 [(3#5, 0x201#32)] loadMem) = some (0xFFFFFF80#32, 0x104#32) := by
  decide
theorem test_step_lbu : regPc 1#5 (after 0x0001C083 [(3#5, 0x200#32)] loadMem) = some (0x80#32, 0x104#32) := by
  decide
theorem test_step_lhu_unaligned : regPc 1#5 (after 0x0011D083 [(3#5, 0x200#32)] loadMem) = some (0xFF7F#32, 0x104#32) := by
  decide
theorem test_step_lhu : regPc 1#5 (after 0x0021D083 [(3#5, 0x200#32)] loadMem) = some (0x1FF#32, 0x104#32) := by
  decide
theorem test_step_lw_base_read_first : regPc 3#5 (after 0x0001A183 [(3#5, 0x200#32)] loadMem) = some (0x1FF7F80#32, 0x104#32) := by
  decide
theorem test_step_lw_wraps :
    regPc 1#5 (after 0xFFE02083 [] [(0, 3#8), (1, 4#8), (0xFFFFFFFE, 1#8), (0xFFFFFFFF, 2#8)]) =
      some (0x04030201#32, 0x104#32) := by
  decide
theorem test_step_lw_absent : runPc (after 0x0011A083 [(3#5, 0x200#32)] loadMem) =
    some (.faulted (.segmentationFault 0x100#32 (some 0x0011A083#32) 0x204#32), 0x100#32) := by
  decide
theorem test_step_sb_creates :
    bytesFlagPc [0x200#32, 0x201#32] (after 0x00218023 [(2#5, 0x11223344#32), (3#5, 0x200#32)] []) =
      some ([some 0x44#8, none], false, 0x104#32) := by
  decide
theorem test_step_sb_into_image :
    bytesFlagPc [0x10#32] (after 0x00218023 [(2#5, 0x5A#32), (3#5, 0x10#32)] [(0x10, 0x99#8)]) =
      some ([some 0x5A#8], true, 0x104#32) := by
  decide
theorem test_step_sw_unaligned :
    bytesFlagPc [0x200#32, 0x201#32, 0x202#32, 0x203#32, 0x204#32]
        (after 0x0021A0A3 [(2#5, 0x11223344#32), (3#5, 0x200#32)] []) =
      some ([none, some 0x44#8, some 0x33#8, some 0x22#8, some 0x11#8], false, 0x104#32) := by
  decide
theorem test_step_sw_over_itself :
    bytesFlagPc [0xFE#32, 0xFF#32, 0x100#32, 0x101#32]
        (after 0xFE21AF23 [(2#5, 0x11223344#32), (3#5, 0x100#32)] [(0xFE, 0#8), (0xFF, 0#8)]) =
      some ([some 0x44#8, some 0x33#8, some 0x22#8, some 0x11#8], true, 0x104#32) := by
  decide

/-- JALR x0, 0(x1) with x1 = 0 and x10 = 7. -/
theorem test_step_sentinel : runPc (after 0x00008067 [(10#5, 7#32)] []) = some (.halted 7#32, 0x100#32) := by
  decide
/-- JALR x0, 1(x0) is not the sentinel. -/
theorem test_step_jalr_to_zero : runPc (after 0x00100067 [] []) = some (.running, 0#32) := by decide
theorem test_step_unknown : runPc (after 0x00000073 [] []) =
    some (.faulted (.unknownInstruction 0x100#32 0x73#32 0x73#7), 0x100#32) := by
  decide
theorem test_step_fetch_absent :
    step (start [] []) = .next ((start [] []).raise (.segmentationFault 0x100#32 none 0x100#32)) := by
  rfl

/-- Section 2.2, capacity reached at the second byte: room for one more cell beside the word's four. -/
theorem test_step_sw_capacity :
    (match step { (start [(2#5, 0x11223344#32), (3#5, 0x200#32)] []).withFetchWord 32 0x0021A023 with
        memCapacity := some 5 } with
      | .next t => some (t.run, t.fill, t.byteAt 0x200#32, t.byteAt 0x201#32, t.pc)
      | .fault _ => none
      | .refused _ => none) =
    some (.faulted (.outOfCapacity 0x100#32 (some 0x0021A023#32) 0x201#32), 5, some 0x44#8, none, 0x100#32) := by
  decide

/-! ## The load sequence (section 2.10, R250, R252) -/

theorem test_load_empty_is_reset : load none [] = .next State.reset := by rfl
theorem test_load_over_capacity :
    (loadedState (some 3) [0x13#8, 0#8, 0#8, 0#8]).run = .faulted (.outOfCapacity 0#32 none 3#32) := by decide
theorem test_load_at_capacity :
    (loadedState (some 4) [0x13#8, 0#8, 0#8, 0#8]).run = .running := by decide
theorem test_load_fill : (loadedState (some 4) [0x13#8, 0#8, 0#8, 0#8]).fill = 4 := by decide
/-- The empty image: the first fetch finds the sentinel cell and no byte 1. -/
theorem test_reset_fetch : State.reset.fetch = .absent 1#32 := by decide

/-! ## Memory keeps its canonical form -/

theorem test_write_sorted : Memory.write [(1, 1#8), (5, 5#8)] 3 3#8 = [(1, 1#8), (3, 3#8), (5, 5#8)] := by decide
theorem test_write_in_place : Memory.write [(1, 1#8), (5, 5#8)] 5 6#8 = [(1, 1#8), (5, 6#8)] := by decide
theorem test_wf_refuses_order : Memory.wf [(5, 5#8), (1, 1#8)] = false := by decide
theorem test_wf_refuses_address : Memory.wf [(4294967296, 0#8)] = false := by decide

/-! ## Witnesses: states and operands that meet the hypotheses of each statement -/

/-- An image of one word at address 0. -/
def one (w : Word) : State := loadedState none (bytesOf w)

/-- The same with a bound on the cells. -/
def oneOf (c : Nat) (w : Word) : State := loadedState (some c) (bytesOf w)

theorem one_fetches : (one 0x00500513#32).fetchesWord 0x00500513#32 := ⟨⟨rfl, rfl⟩, by decide⟩

theorem witness_DecodeOfEncode :
    (.jal 31#5 0x100000#21 : Instr).wf = true ∧ (.bgeu 0#5 31#5 0x0FFE#13 : Instr).wf = true := by decide

theorem witness_DecodedInstructionIsWellFormed :
    decodeWord 0x800002EF#32 = .ok (.jal 5#5 0x100000#21) := by decide

theorem witness_EncodeOfDecodeOnSignificantBits :
    decodeWord 0xBE01D093#32 = .ok (.srli 1#5 3#5 0#5) ∧
    0x0001D093#32 &&& significantBits (.srli 1#5 3#5 0#5) =
      0xBE01D093#32 &&& significantBits (.srli 1#5 3#5 0#5) := by decide

/-- One word of each of the three opcodes, at the ends of the immediate's range. -/
theorem witness_ImmediateOfITypeWord :
    (decodeWord 0x80010093#32 = .ok (.addi 1#5 2#5 0x800#12) ∧ (0x80010093#32).extractLsb' 0 7 = 0x13#7 ∧
      (0x80010093#32).extractLsb' 12 3 ≠ 1#3 ∧ (0x80010093#32).extractLsb' 12 3 ≠ 5#3) ∧
    (decodeWord 0x7FF1A083#32 = .ok (.lw 1#5 3#5 0x7FF#12) ∧ (0x7FF1A083#32).extractLsb' 0 7 = 0x03#7) ∧
    (decodeWord 0xFFF100E7#32 = .ok (.jalr 1#5 2#5 0xFFF#12) ∧ (0xFFF100E7#32).extractLsb' 0 7 = 0x67#7) := by
  decide

theorem witness_ImmediateOfSTypeWord :
    decodeWord 0x80218023#32 = .ok (.sb 3#5 2#5 0x800#12) ∧ (0x80218023#32).extractLsb' 0 7 = 0x23#7 := by decide

theorem witness_OffsetOfBTypeWord :
    decodeWord 0x80000063#32 = .ok (.beq 0#5 0#5 0x1000#13) ∧ (0x80000063#32).extractLsb' 0 7 = 0x63#7 := by decide

theorem witness_ImmediateOfUTypeWord :
    (decodeWord 0xFFFFF0B7#32 = .ok (.lui 1#5 0xFFFFF#20) ∧ (0xFFFFF0B7#32).extractLsb' 0 7 = 0x37#7) ∧
    (decodeWord 0x00000097#32 = .ok (.auipc 1#5 0#20) ∧ (0x00000097#32).extractLsb' 0 7 = 0x17#7) := by decide

theorem witness_OffsetOfJTypeWord :
    decodeWord 0x800002EF#32 = .ok (.jal 5#5 0x100000#21) ∧ (0x800002EF#32).extractLsb' 0 7 = 0x6F#7 := by decide

theorem witness_ShiftAmountOfWord :
    (decodeWord 0x40411093#32 = .ok (.slli 1#5 2#5 4#5) ∧ (0x40411093#32).extractLsb' 12 3 = 1#3) ∧
    (decodeWord 0x41F15093#32 = .ok (.srai 1#5 2#5 31#5) ∧ (0x41F15093#32).extractLsb' 12 3 = 5#3) ∧
    (decodeWord 0x00015093#32 = .ok (.srli 1#5 2#5 0#5) ∧ (0x00015093#32).extractLsb' 12 3 = 5#3) := by decide

theorem witness_StepRunsDecodedInstruction :
    (one 0x00500513#32).fetchesWord 0x00500513#32 ∧ decodeWord 0x00500513#32 = .ok (.addi 10#5 0#5 5#12) :=
  ⟨one_fetches, by decide⟩

/-- A state for each clause: an ended run, a pending fault, a fetch with its last byte absent, an unknown word,
an instruction. -/
theorem witness_CycleOrder :
    ((State.reset.halt 0#32).run ≠ .running) ∧
    (({ State.reset with pendingFault := true } : State).run = .running) ∧
    ((loadedState none [0x13#8, 0#8, 0#8]).fetches ∧
      (loadedState none [0x13#8, 0#8, 0#8]).read32 0#32 = .absent 3#32) ∧
    ((one 0x73#32).fetches ∧ (one 0x73#32).read32 0#32 = .ok 0x73#32 ∧
      decodeWord 0x73#32 = .unknown .unlistedOpcode) ∧
    ((one 0x13#32).fetches ∧ (one 0x13#32).read32 0#32 = .ok 0x13#32 ∧
      decodeWord 0x13#32 = .ok (.addi 0#5 0#5 0#12) ∧
      ∃ t, exec (.addi 0#5 0#5 0#12) (one 0x13#32) = .next t ∧ t.run = .running) :=
  ⟨by decide, rfl, ⟨⟨rfl, rfl⟩, by decide⟩, ⟨⟨rfl, rfl⟩, by decide, by decide⟩,
    ⟨⟨rfl, rfl⟩, by decide, by decide, _, rfl, rfl⟩⟩

theorem witness_StepSucceedsExactlyWhileRunning :
    State.reset.run = .running ∧ (State.reset.halt 42#32).run = .halted 42#32 ∧
    (State.reset.raise (.illegalWrite 4#32)).run = .faulted (.illegalWrite 4#32) := by decide

theorem witness_UnknownWordEndsRun : (one 0x0001B103#32).fetchesWord 0x0001B103#32 ∧ isUnknownWord 0x0001B103#32 :=
  ⟨⟨⟨rfl, rfl⟩, by decide⟩, .inr (.inl (by decide))⟩

/-- SB into the last byte of the image with the capacity used up, and SW whose first byte only lies in the image
and whose three new cells just fit. -/
theorem witness_IllegalStoreEndsRunNextCycle :
    ((oneOf 4 0x000001A3#32).runs (.sb 0#5 0#5 3#12) ∧
      storeSpan (.sb 0#5 0#5 3#12) (oneOf 4 0x000001A3#32) = some (3#32, 1) ∧
      (oneOf 4 0x000001A3#32).hasRoom 3#32 1 ∧ (oneOf 4 0x000001A3#32).touchesImage 3#32 1) ∧
    ((oneOf 7 0x005021A3#32).runs (.sw 0#5 5#5 3#12) ∧
      storeSpan (.sw 0#5 5#5 3#12) (oneOf 7 0x005021A3#32) = some (3#32, 4) ∧
      (oneOf 7 0x005021A3#32).hasRoom 3#32 4 ∧ (oneOf 7 0x005021A3#32).touchesImage 3#32 4) := by
  refine ⟨⟨⟨_, ⟨⟨rfl, rfl⟩, rfl⟩, by decide⟩, by decide, ?_, 3#32, by decide, by decide⟩,
    ⟨⟨_, ⟨⟨rfl, rfl⟩, rfl⟩, by decide⟩, by decide, ?_, 3#32, by decide, by decide⟩⟩
  · intro c hc
    cases hc
    exact .inl (by decide)
  · intro c hc
    cases hc
    exact .inr (by decide)

theorem witness_FetchOfAbsentCellFaults :
    ((start [] []).fetches ∧ (start [] []).firstAbsent 0x100#32 0) ∧
    ((loadedState none [0x13#8, 0#8, 0#8]).fetches ∧
      (loadedState none [0x13#8, 0#8, 0#8]).firstAbsent 0#32 3) :=
  ⟨⟨⟨by decide, by decide⟩, by decide, by decide⟩, ⟨by decide, by decide⟩, by decide, by decide⟩

/-! The words of the encoding clauses: every bit outside the mask set. -/

theorem witness_AddiResult : 0xFFFF8F93#32 &&& 0x0000707F#32 = 0x00000013#32 := by decide
theorem witness_LogicImmediateResults :
    0xFFFFFF93#32 &&& 0x0000707F#32 = 0x00007013#32 ∧ 0xFFFFEF93#32 &&& 0x0000707F#32 = 0x00006013#32 ∧
    0xFFFFCF93#32 &&& 0x0000707F#32 = 0x00004013#32 := by decide
theorem witness_SlliResult : 0xFFFF9F93#32 &&& 0x0000707F#32 = 0x00001013#32 := by decide
theorem witness_RightShiftResults :
    0xBFFFDF93#32 &&& 0x4000707F#32 = 0x00005013#32 ∧ 0xFFFFDF93#32 &&& 0x4000707F#32 = 0x40005013#32 := by decide
theorem witness_AddSubResults :
    0xBFFF8FB3#32 &&& 0x4000707F#32 = 0x00000033#32 ∧ 0xFFFF8FB3#32 &&& 0x4000707F#32 = 0x40000033#32 := by decide
theorem witness_LuiResult : 0xFFFFFFB7#32 &&& 0x0000007F#32 = 0x00000037#32 := by decide
theorem witness_AuipcResult : 0xFFFFFF97#32 &&& 0x0000007F#32 = 0x00000017#32 := by decide
theorem witness_JalResult : 0xFFFFFFEF#32 &&& 0x0000007F#32 = 0x0000006F#32 := by decide

/-- Each of the three ways not to be the sentinel, and an effective address that wraps. -/
theorem witness_JalrJumps :
    (0xFFFF8FE7#32 &&& 0x0000707F#32 = 0x00000067#32) ∧
    ¬ (1#5 = 0#5 ∧ 0#12 = 0#12 ∧ (start [] []).readReg 0#5 = 0#32) ∧
    ¬ (0#5 = 0#5 ∧ 1#12 = 0#12 ∧ (start [] []).readReg 0#5 = 0#32) ∧
    ¬ (0#5 = 0#5 ∧ 0#12 = 0#12 ∧ (start [(5#5, 1#32)] []).readReg 5#5 = 0#32) ∧
    (start [] []).isEffectiveAddr 0#5 0xFFF#12 0xFFFFFFFF#32 :=
  ⟨by decide, by decide, by decide, by decide, by unfold State.isEffectiveAddr; decide⟩

theorem witness_JalrSentinelHalts : (start [(10#5, 7#32)] []).readReg 1#5 = 0#32 := by decide

theorem witness_EqualityBranches :
    0xFFFF8FE3#32 &&& 0x0000707F#32 = 0x00000063#32 ∧ 0xFFFF9FE3#32 &&& 0x0000707F#32 = 0x00001063#32 ∧
    (start [(1#5, 5#32), (2#5, 5#32)] []).readReg 1#5 = (start [(1#5, 5#32), (2#5, 5#32)] []).readReg 2#5 ∧
    (start [(1#5, 5#32), (2#5, 6#32)] []).readReg 1#5 ≠ (start [(1#5, 5#32), (2#5, 6#32)] []).readReg 2#5 := by
  decide

theorem witness_SignedBranches :
    0xFFFFCFE3#32 &&& 0x0000707F#32 = 0x00004063#32 ∧ 0xFFFFDFE3#32 &&& 0x0000707F#32 = 0x00005063#32 ∧
    ((start [(1#5, 0x80000000#32)] []).readReg 1#5).toInt < ((start [(1#5, 0x80000000#32)] []).readReg 2#5).toInt ∧
    ((start [] []).readReg 2#5).toInt ≤ ((start [] []).readReg 1#5).toInt := by
  decide

theorem witness_UnsignedBranches :
    0xFFFFEFE3#32 &&& 0x0000707F#32 = 0x00006063#32 ∧ 0xFFFFFFE3#32 &&& 0x0000707F#32 = 0x00007063#32 ∧
    ((start [(2#5, 0x80000000#32)] []).readReg 1#5).toNat < ((start [(2#5, 0x80000000#32)] []).readReg 2#5).toNat ∧
    ((start [] []).readReg 2#5).toNat ≤ ((start [] []).readReg 1#5).toNat := by
  decide

/-- x3 = 0x201 in the memory of section 2.4: a byte at 0x200 and none at 0x1FF. -/
theorem witness_ByteLoads :
    0xFFFF8F83#32 &&& 0x0000707F#32 = 0x00000003#32 ∧ 0xFFFFCF83#32 &&& 0x0000707F#32 = 0x00004003#32 ∧
    (start [(3#5, 0x201#32)] loadMem).isEffectiveAddr 3#5 0xFFF#12 0x200#32 ∧
    (start [(3#5, 0x201#32)] loadMem).byteAt 0x200#32 = some 0x80#8 ∧
    (start [(3#5, 0x201#32)] loadMem).isEffectiveAddr 3#5 0xFFE#12 0x1FF#32 ∧
    (start [(3#5, 0x201#32)] loadMem).byteAt 0x1FF#32 = none := by
  unfold State.isEffectiveAddr
  decide

theorem witness_HalfwordLoad :
    0xFFFFDF83#32 &&& 0x0000707F#32 = 0x00005003#32 ∧
    ((start [(3#5, 0x201#32)] loadMem).isEffectiveAddr 3#5 1#12 0x202#32 ∧
      (start [(3#5, 0x201#32)] loadMem).byteAt 0x202#32 = some 0xFF#8 ∧
      (start [(3#5, 0x201#32)] loadMem).byteAt (0x202#32 + 1#32) = some 0x01#8) ∧
    (start [(3#5, 0x201#32)] loadMem).firstAbsent 0x1FF#32 0 ∧
    (start [(3#5, 0x201#32)] loadMem).firstAbsent 0x203#32 1 := by
  unfold State.isEffectiveAddr State.firstAbsent
  decide

theorem witness_WordLoad :
    0xFFFFAF83#32 &&& 0x0000707F#32 = 0x00002003#32 ∧
    ((start [(3#5, 0x201#32)] loadMem).isEffectiveAddr 3#5 0xFFF#12 0x200#32 ∧
      (start [(3#5, 0x201#32)] loadMem).byteAt 0x200#32 = some 0x80#8 ∧
      (start [(3#5, 0x201#32)] loadMem).byteAt (0x200#32 + 1#32) = some 0x7F#8 ∧
      (start [(3#5, 0x201#32)] loadMem).byteAt (0x200#32 + 2#32) = some 0xFF#8 ∧
      (start [(3#5, 0x201#32)] loadMem).byteAt (0x200#32 + 3#32) = some 0x01#8) ∧
    (start [(3#5, 0x201#32)] loadMem).firstAbsent 0x1FF#32 0 ∧
    (start [(3#5, 0x201#32)] loadMem).firstAbsent 0x201#32 3 := by
  unfold State.isEffectiveAddr State.firstAbsent
  decide

/-- SB at 4, the first address past the image: with room for one cell, and with none. -/
theorem witness_ByteStore :
    0xFFFF8FA3#32 &&& 0x0000707F#32 = 0x00000023#32 ∧
    ((oneOf 5 0#32).isEffectiveAddr 0#5 4#12 4#32 ∧ ∀ c, (oneOf 5 0#32).memCapacity = some c → (oneOf 5 0#32).fill < c) ∧
    ((oneOf 4 0#32).isEffectiveAddr 0#5 4#12 4#32 ∧ (oneOf 4 0#32).byteAt 4#32 = none ∧
      (oneOf 4 0#32).memCapacity = some (oneOf 4 0#32).fill) ∧
    ((oneOf 4 0#32).isEffectiveAddr 0#5 3#12 3#32 ∧ ((oneOf 4 0#32).byteAt 3#32).isSome = true) := by
  unfold State.isEffectiveAddr
  refine ⟨by decide, ⟨by decide, ?_⟩, by decide, by decide⟩
  intro c hc
  cases hc
  decide

/-- SW at 3: one byte of the image and three new cells; capacity for all, for none, for two. -/
theorem witness_WordStore :
    0xFFFFAFA3#32 &&& 0x0000707F#32 = 0x00002023#32 ∧
    ((oneOf 7 0#32).isEffectiveAddr 0#5 3#12 3#32 ∧ (oneOf 7 0#32).hasRoom 3#32 4) ∧
    ((oneOf 4 0#32).isEffectiveAddr 0#5 3#12 3#32 ∧ (oneOf 4 0#32).byteAt (3#32 + BitVec.ofNat 32 1) = none ∧
      (oneOf 4 0#32).memCapacity = some ((oneOf 4 0#32).fill + (oneOf 4 0#32).newCells 3#32 1)) ∧
    ((oneOf 4 0#32).byteAt (4#32 + BitVec.ofNat 32 0) = none ∧
      (oneOf 4 0#32).memCapacity = some ((oneOf 4 0#32).fill + (oneOf 4 0#32).newCells 4#32 0)) ∧
    ((oneOf 6 0#32).isEffectiveAddr 0#5 3#12 3#32 ∧ (oneOf 6 0#32).byteAt (3#32 + BitVec.ofNat 32 3) = none ∧
      (oneOf 6 0#32).memCapacity = some ((oneOf 6 0#32).fill + (oneOf 6 0#32).newCells 3#32 3)) := by
  unfold State.isEffectiveAddr
  refine ⟨by decide, ⟨by decide, ?_⟩, by decide, by decide, by decide⟩
  intro c hc
  cases hc
  exact .inr (by decide)

/-- The access that wraps past the top of the address space, into the image. -/
theorem witness_StoredWordLoadsBack : (oneOf 6 0#32).hasRoom ((oneOf 6 0#32).storeAddr 0#5 0xFFE#12) 4 := by
  intro c hc
  cases hc
  exact .inr (by decide)

theorem witness_ReadPrimitive :
    ((one 0x04030201#32).byteAt 0#32 = some 1#8 ∧ (one 0x04030201#32).byteAt (0#32 + 1#32) = some 2#8 ∧
      (one 0x04030201#32).byteAt (0#32 + 2#32) = some 3#8 ∧ (one 0x04030201#32).byteAt (0#32 + 3#32) = some 4#8) ∧
    (one 0#32).firstAbsent 4#32 0 ∧ (one 0#32).firstAbsent 3#32 1 ∧ (one 0#32).firstAbsent 1#32 3 := by
  unfold State.firstAbsent
  decide

/-- A state that meets the invariant, at its capacity. -/
theorem oneOf_inv : (oneOf 4 0x00500513#32).Inv where
  memWf := by decide
  fillCounts := by decide
  x0Unwritten := by decide
  pcEven := by decide
  boundaryInRange := by decide
  imageBacked := by
    intro a ha
    have h : a < 4 := ha
    interval_cases a <;> decide
  withinCapacity := by
    intro _ c hc
    cases hc
    decide

theorem witness_BytePrimitiveWrites :
    ((one 0#32).byteAt 3#32).isSome = true ∧ (one 0#32).memCapacity = none ∧
    (∃ c, (oneOf 5 0#32).memCapacity = some c ∧ (oneOf 5 0#32).fill < c) ∧
    ((oneOf 4 0#32).byteAt 4#32 = none ∧ (oneOf 4 0#32).memCapacity = some (oneOf 4 0#32).fill) :=
  ⟨by decide, rfl, ⟨5, rfl, by decide⟩, by decide⟩

/-- The last byte of the image, with no cell left. -/
theorem witness_IllegalWriteUpdatesInPlace :
    (oneOf 4 0x00500513#32).Inv ∧ (3#32).toNat < (oneOf 4 0x00500513#32).codeBoundary :=
  ⟨oneOf_inv, by decide⟩

theorem witness_RegisterFileReadsBack : 31#5 ≠ 0#5 := by decide

/-- A register instruction, a branch, and a load that ends the run. -/
theorem witness_FrameOfRegisterInstructions :
    (storeSpan (.jal 31#5 0#21) State.reset = none ∧ ∃ t, exec (.jal 31#5 0#21) State.reset = .next t) ∧
    (storeSpan (.beq 0#5 0#5 0#13) State.reset = none ∧ ∃ t, exec (.beq 0#5 0#5 0#13) State.reset = .next t) ∧
    (storeSpan (.lw 1#5 0#5 0#12) State.reset = none ∧ ∃ t, exec (.lw 1#5 0#5 0#12) State.reset = .next t) :=
  ⟨⟨rfl, exec_next _ _⟩, ⟨rfl, exec_next _ _⟩, ⟨rfl, exec_next _ _⟩⟩

/-- A byte store, and a word store that is cut short. -/
theorem witness_FrameOfStores :
    (storeSpan (.sb 0#5 1#5 0#12) State.reset = some (0#32, 1) ∧ ∃ t, exec (.sb 0#5 1#5 0#12) State.reset = .next t) ∧
    (storeSpan (.sw 0#5 1#5 3#12) (oneOf 4 0#32) = some (3#32, 4) ∧
      ∃ t, exec (.sw 0#5 1#5 3#12) (oneOf 4 0#32) = .next t) :=
  ⟨⟨by decide, exec_next _ _⟩, ⟨by decide, exec_next _ _⟩⟩

theorem witness_StepKeepsInvariant :
    (oneOf 4 0x00500513#32).Inv ∧ ∃ t, step (oneOf 4 0x00500513#32) = .next t ∧ t.readReg 10#5 = 5#32 :=
  ⟨oneOf_inv, _, rfl, by decide⟩

theorem witness_RunsFromLoadKeepInvariant :
    load (some 4) (bytesOf 0x00500513#32) = .next (oneOf 4 0x00500513#32) ∧
    ∃ t, Host.Core.run core 1 (oneOf 4 0x00500513#32) = .next t ∧ t.pc = 4#32 :=
  ⟨rfl, _, rfl, by decide⟩

/-- An image at the capacity, one above it, the empty image with no cell allowed, and an image one byte too
long. -/
theorem witness_LoadSequenceLeaves :
    ((bytesOf 0#32).length ≤ 4294967296 ∧ ∀ c, some 4 = some c → max (bytesOf 0#32).length 1 ≤ c) ∧
    (3 < max (bytesOf 0#32).length 1) ∧ (0 < max ([] : List Byte).length 1) ∧
    4294967296 < (List.replicate 4294967297 (0#8 : Byte)).length := by
  refine ⟨⟨by decide, ?_⟩, by decide, by decide, by rw [List.length_replicate]; decide⟩
  intro c hc
  cases hc
  decide

theorem witness_BoundaryAndCapacityAreFixed : ∃ t, step (oneOf 4 0x000001A3#32) = .next t ∧ t.pc = 4#32 :=
  ⟨_, rfl, by decide⟩

/-- A step that creates three cells. -/
theorem witness_CellsAreNeverDeleted :
    (∃ t, step (one 0x005021A3#32) = .next t ∧ t.fill = 7) ∧ ((one 0x005021A3#32).mem.read 3).isSome = true ∧
    (oneOf 4 0x00500513#32).Inv :=
  ⟨⟨_, rfl, by decide⟩, by decide, oneOf_inv⟩

/-- A step that sets the flag, a state in which it is set, a store whose flag the fourth clause varies. -/
theorem witness_FaultFlagIsSetOnlyByIllegalWrites :
    (∃ s, load none [] = .next s) ∧
    (∃ t, step (one 0x000001A3#32) = .next t ∧ (one 0x000001A3#32).pendingFault = false ∧ t.pendingFault = true) ∧
    (({ State.reset with pendingFault := true } : State).run = .running) ∧
    ∃ t, exec (.sb 0#5 0#5 3#12) (one 0x000001A3#32) = .next t :=
  ⟨⟨_, rfl⟩, ⟨_, rfl, rfl, by decide⟩, rfl, exec_next _ _⟩

theorem witness_MemoryChangesOnlyByStores :
    ∃ t, step (one 0x01000023#32) = .next t ∧ t.mem.read 0 ≠ (one 0x01000023#32).mem.read 0 :=
  ⟨_, rfl, by decide⟩

/-- A branch not taken, from the last word of the address space: the pc wraps to 0. -/
theorem witness_DefaultAdvance :
    ¬ setsPc (.bne 0#5 0#5 16#13) { State.reset with pc := 0xFFFFFFFC#32 } ∧
    ∃ t, exec (.bne 0#5 0#5 16#13) { State.reset with pc := 0xFFFFFFFC#32 } = .next t ∧ t.run = .running :=
  ⟨fun h => h rfl, _, rfl, rfl⟩

/-- An unknown word, and a store cut short. -/
theorem witness_EndOfRunChangesOnlyRun :
    (∃ t, step (one 0x73#32) = .next t ∧ t.run = .faulted (.unknownInstruction 0#32 0x73#32 0x73#7)) ∧
    (∃ t, step (oneOf 6 0x005021A3#32) = .next t ∧
      t.run = .faulted (.outOfCapacity 0#32 (some 0x005021A3#32) 6#32)) :=
  ⟨⟨_, rfl, by decide⟩, ⟨_, rfl, by decide⟩⟩

theorem witness_OnlyTheSentinelHalts : ∃ t, step (one 0x67#32) = .next t ∧ t.run = .halted 0#32 :=
  ⟨_, rfl, by decide⟩

/-- A step for each kind of record. -/
theorem witness_FaultRecordsAreOfThisCycle :
    (∃ t, step (loadedState none [0x13#8]) = .next t ∧ t.run = .faulted (.segmentationFault 0#32 none 1#32)) ∧
    (∃ t, step (one 0x10002083#32) = .next t ∧
      t.run = .faulted (.segmentationFault 0#32 (some 0x10002083#32) 0x100#32)) ∧
    (∃ t, step { one 0x13#32 with pendingFault := true } = .next t ∧ t.run = .faulted (.illegalWrite 0#32)) ∧
    (∃ t, step (oneOf 4 0x00000223#32) = .next t ∧
      t.run = .faulted (.outOfCapacity 0#32 (some 0x00000223#32) 4#32)) ∧
    (∃ t, step (one 0xFFFFFFFF#32) = .next t ∧
      t.run = .faulted (.unknownInstruction 0#32 0xFFFFFFFF#32 0x7F#7)) :=
  ⟨⟨_, rfl, by decide⟩, ⟨_, rfl, by decide⟩, ⟨_, rfl, by decide⟩, ⟨_, rfl, by decide⟩, ⟨_, rfl, by decide⟩⟩

/-- A cycle that ends the run and one that completes. -/
theorem witness_TraceRecordOfCompletedInstruction :
    (∃ t, step (one 0x67#32) = .next t ∧ t.run ≠ .running) ∧
    (∃ t, step (one 0x00500513#32) = .next t ∧ t.run = .running) :=
  ⟨⟨_, rfl, by decide⟩, ⟨_, rfl, by decide⟩⟩

theorem witness_StatusShowsRun :
    State.reset.run = .running ∧ (State.reset.halt 42#32).run = .halted 42#32 ∧
    (State.reset.raise (.segmentationFault 0#32 none 1#32)).run = .faulted (.segmentationFault 0#32 none 1#32) ∧
    (State.reset.raise (.illegalWrite 0#32)).run = .faulted (.illegalWrite 0#32) ∧
    (State.reset.raise (.outOfCapacity 0#32 none 3#32)).run = .faulted (.outOfCapacity 0#32 none 3#32) ∧
    (State.reset.raise (.unknownInstruction 0#32 0#32 0#7)).run = .faulted (.unknownInstruction 0#32 0#32 0#7) := by
  decide

theorem witness_PlacedWordRunsNext : decodeWord 0x00500513#32 = .ok (.addi 10#5 0#5 5#12) := by decide

/-! ## Pseudo-instructions (30_encoding.md R88) -/

/-- Section 3, program P2: the words at 0x04 and 0x08 make x7 = 0x80123456. -/
theorem test_expand_li : (Pseudo.li 7#5 0x80123456#32).expand 0#32 =
    [.lui 7#5 0x80123#20, .addi 7#5 7#5 0x456#12] := by decide
/-- By hand from R88: 0xFFF + 0x800 = 0x17FF, so hi = 1 and lo = -1. -/
theorem test_expand_li_negative_low : (Pseudo.li 7#5 0xFFF#32).expand 0#32 =
    [.lui 7#5 1#20, .addi 7#5 7#5 (BitVec.ofInt 12 (-1))] := by decide
/-- By hand from R88: one `addi` at the end of its range, one `lui` where lo = 0. -/
theorem test_expand_li_short : (Pseudo.li 7#5 0xFFFFF800#32).expand 0#32 = [.addi 7#5 0#5 0x800#12] ∧
    (Pseudo.li 7#5 0x1000#32).expand 0#32 = [.lui 7#5 1#20] := by decide
/-- By hand from R88: sym - pc = 0xFFFFFF00. -/
theorem test_expand_la : (Pseudo.la 5#5 0#32).expand 0x100#32 =
    [.auipc 5#5 0#20, .addi 5#5 5#5 0xF00#12] := by decide

/-- A value at each end of the one-instruction range, one past it, and one with low part 0. -/
theorem witness_ValuePseudoInstructions :
    (-2048 ≤ (0xFFFFF800#32 : Word).toInt ∧ (0xFFFFF800#32 : Word).toInt ≤ 2047) ∧
    (-2048 ≤ (2047#32 : Word).toInt ∧ (2047#32 : Word).toInt ≤ 2047) ∧
    ¬ ((-2048 ≤ (2048#32 : Word).toInt ∧ (2048#32 : Word).toInt ≤ 2047) ∨ (2048#32 : Word).toNat % 4096 = 0) ∧
    (4096#32 : Word).toNat % 4096 = 0 := by decide

/-- `jr` with its register 0 and not; `tail` from 0x1000 to address 0, from 0x1001 to address 0 (its low part is
not 0), and to an address that is not 0. -/
theorem witness_JumpPseudoInstructions :
    (start [] []).readReg 5#5 = 0#32 ∧ (start [(5#5, 1#32)] []).readReg 5#5 ≠ 0#32 ∧
    ((0xFFFFF000#32 : Word).toNat % 4096 = 0 ∧
      ({ start [] [] with pc := 0x1000#32 } : State).pc + 0xFFFFF000#32 = 0#32) ∧
    (0xFFFFEFFF#32 : Word).toNat % 4096 ≠ 0 ∧ (start [] []).pc + 0x1000#32 ≠ 0#32 := by decide

/-- `ble` of equal registers. -/
theorem witness_BranchPseudoInstructions :
    Pseudo.ble 1#5 2#5 0x1000#13 = .ble 1#5 2#5 0x1000#13 ∧
    (True ↔ ((start [] []).readReg 1#5).toInt ≤ ((start [] []).readReg 2#5).toInt) := by decide

/-! ## The trace -/

/-- Section 1.1, Scenario A, second instruction: the trace record of ADDI x11, x10, 3 with x10 = 5. -/
theorem test_trace_addi :
    traceRecord ((start [(10#5, 5#32)] []).withFetchWord 32 0x00350593) =
      some ⟨0x100#32, 0x00350593#32, "ADDI", .addi 11#5 10#5 3#12, [⟨11#5, 0#32, 8#32⟩]⟩ := by
  decide

end Sys2Proof.Tests
end

/-! ## The step by run state: a running machine always has a next state, an ended one never -/

namespace Sys2Proof.Machine

/-- R90: a step of a running machine is the cycle from its checkpoint on. -/
theorem step_of_running {s : State} (h : s.run = .running) : step s = runningCycle s := by
  simp only [step, cycle, h]

/-- R30, log entry 3: no step is enabled after a halt. -/
theorem step_of_halted {s : State} {v : Word} (h : s.run = .halted v) : step s = .fault (.runHalted v) := by
  simp only [step, cycle, h]

/-- R30, log entry 3: no step is enabled after a fault. -/
theorem step_of_faulted {s : State} {r : FaultRecord} (h : s.run = .faulted r) :
    step s = .fault (.runFaulted r) := by
  simp only [step, cycle, h]

/-- A fetched word always has a next state: a known one by its meaning, an unknown one by the end of the run. -/
theorem runWord_next (w : Word) (s : State) : ∃ t, runWord w s = .next t := by
  unfold runWord
  cases decodeWord w with
  | ok i => exact exec_next i s
  | unknown why => exact ⟨_, rfl⟩

/-- A running cycle always has a next state, wherever it ends: at the checkpoint, at the fetch, or after the
fetched word. -/
theorem runningCycle_next (s : State) : ∃ t, runningCycle s = .next t := by
  unfold runningCycle
  cases s.pendingFault with
  | true => exact ⟨_, rfl⟩
  | false =>
    cases s.fetch with
    | absent a => exact ⟨_, rfl⟩
    | ok w => exact runWord_next w s

/-- Settles O14: a running machine's cycle always has a next state, and an ended one answers how it ended. -/
theorem stepSucceedsExactlyWhileRunning : Obligations.StepSucceedsExactlyWhileRunning := by
  intro s
  refine ⟨fun h => ?_, fun v h => step_of_halted h, fun r h => step_of_faulted h⟩
  rw [step_of_running h]
  exact runningCycle_next s

end Sys2Proof.Machine

/-! ## The decoder answers well-formed instructions -/

namespace Sys2Proof

/-- R75: a branch offset ends in the implicit 0 bit. -/
theorem evenOffset_immBOf (w : Word) : evenOffset (immBOf w) = true := by
  rw [evenOffset, getLsbD_immBOf]
  rfl

/-- R77: a JAL offset ends in the implicit 0 bit. -/
theorem evenOffset_immJOf (w : Word) : evenOffset (immJOf w) = true := by
  rw [evenOffset, getLsbD_immJOf]
  rfl

/-- Only the branches and JAL have an operand whose well-formedness says anything, and its bit 0 is a constant. -/
theorem decodeWord_wf {w : Word} {i : Instr} (h : decodeWord w = .ok i) : i.wf = true := by
  rcases decodeWord_cases h with ⟨_, rfl⟩ | ⟨_, rfl⟩ | ⟨_, rfl⟩ | ⟨_, _, rfl⟩ | ⟨_, hbranch⟩ | ⟨_, hload⟩ |
    ⟨_, hstore⟩ | ⟨_, hopImm⟩ | ⟨_, _, hop⟩
  · rfl
  · rfl
  · exact evenOffset_immJOf w
  · rfl
  · rcases hbranch with ⟨_, rfl⟩ | ⟨_, rfl⟩ | ⟨_, rfl⟩ | ⟨_, rfl⟩ | ⟨_, rfl⟩ | ⟨_, rfl⟩ <;>
      exact evenOffset_immBOf w
  · rcases hload with ⟨_, rfl⟩ | ⟨_, rfl⟩ | ⟨_, rfl⟩ | ⟨_, rfl⟩ <;> rfl
  · rcases hstore with ⟨_, rfl⟩ | ⟨_, rfl⟩ <;> rfl
  · rcases hopImm with ⟨_, rfl⟩ | ⟨_, rfl⟩ | ⟨_, rfl⟩ | ⟨_, _, rfl⟩ | ⟨_, _, rfl⟩ | ⟨_, rfl⟩ | ⟨_, rfl⟩ <;> rfl
  · rcases hop with ⟨_, rfl⟩ | ⟨_, rfl⟩ <;> rfl

end Sys2Proof

/-! ## What a meaning and a step leave of the store, the registers and the pc -/

namespace Sys2Proof.Machine

/-- The two states agree in everything but the registers, the pc and the run state: what a write changes, the
boundary it consults and the capacity. -/
structure State.SameStore (s t : State) : Prop where
  mem : t.mem = s.mem
  fill : t.fill = s.fill
  codeBoundary : t.codeBoundary = s.codeBoundary
  pendingFault : t.pendingFault = s.pendingFault
  memCapacity : t.memCapacity = s.memCapacity

theorem State.sameStore_advance (s : State) : s.SameStore s.advance := ⟨rfl, rfl, rfl, rfl, rfl⟩
theorem State.sameStore_jump (s : State) (v : Word) : s.SameStore (s.jump v) := ⟨rfl, rfl, rfl, rfl, rfl⟩
theorem State.sameStore_raise (s : State) (r : FaultRecord) : s.SameStore (s.raise r) := ⟨rfl, rfl, rfl, rfl, rfl⟩
theorem State.sameStore_halt (s : State) (v : Word) : s.SameStore (s.halt v) := ⟨rfl, rfl, rfl, rfl, rfl⟩

theorem State.sameStore_writeReg_jump (s : State) (rd : RegIx) (v pc' : Word) :
    s.SameStore ((s.writeReg rd v).jump pc') := by
  constructor <;> simp

section
variable {i : Instr} {s t : State}

/-- A meaning changes the store by the writes of its stored bytes and by nothing else; one that is no store
writes none (R51, R53). -/
theorem exec_writeFrame (h : exec i s = .next t) :
    ∃ u, WriteFrame s u (storedBytes i s) ∧ u.SameStore t ∧ (storeSpan i s = none → u = s) := by
  cases exec_outcome h with
  | wrote rd v pc' _ _ _ _ ht => exact ⟨s, .refl s _, ht ▸ s.sameStore_writeReg_jump rd v pc', fun _ => rfl⟩
  | branched pc' _ _ _ _ ht => exact ⟨s, .refl s _, ht ▸ s.sameStore_jump pc', fun _ => rfl⟩
  | segfaulted a _ _ _ ht => exact ⟨s, .refl s _, ht ▸ s.sameStore_raise _, fun _ => rfl⟩
  | halted rs1 _ _ ht => exact ⟨s, .refl s _, ht ▸ s.sameStore_halt _, fun _ => rfl⟩
  | stored u _ hs _ hf ht => exact ⟨u, hf, ht ▸ u.sameStore_advance, fun hn => absurd hn hs⟩
  | full u a c _ hs hf _ _ _ _ ht => exact ⟨u, hf, ht ▸ u.sameStore_raise _, fun hn => absurd hn hs⟩

/-- An instruction that is no store leaves the store alone, also where it ends the run. -/
theorem exec_sameStore (hs : storeSpan i s = none) (h : exec i s = .next t) : s.SameStore t := by
  obtain ⟨u, _, hut, hu⟩ := exec_writeFrame h
  exact hu hs ▸ hut

/-- No meaning changes a register other than its destination (R22). -/
theorem exec_readReg_other (h : exec i s = .next t) {r : RegIx} (hr : destReg i ≠ some r) :
    t.readReg r = s.readReg r := by
  cases exec_outcome h with
  | wrote rd v pc' hrd _ _ _ ht =>
    have hne : r ≠ rd := fun e => hr (e ▸ hrd)
    rw [ht, State.jump_readReg, State.readReg_writeReg, if_neg hne]
    split
    next h0 => rw [h0, State.readReg_zero]
    next => rfl
  | branched pc' _ _ _ _ ht => rw [ht, State.jump_readReg]
  | segfaulted a _ _ _ ht => rw [ht, State.raise_readReg]
  | halted rs1 _ _ ht => rw [ht, State.halt_readReg]
  | stored u _ _ _ hf ht => rw [ht, State.advance_readReg, State.readReg_congr hf.regs]
  | full u a c _ _ hf _ _ _ _ ht => rw [ht, State.raise_readReg, State.readReg_congr hf.regs]

/-- No meaning writes slot 0 of the register file (R21). -/
theorem exec_slot0 (h : exec i s = .next t) : t.regs[0] = s.regs[0] := by
  cases exec_outcome h with
  | wrote rd v pc' _ _ _ _ ht => simp only [ht, State.jump_regs, State.writeReg_slot0]
  | branched pc' _ _ _ _ ht => simp only [ht, State.jump_regs]
  | segfaulted a _ _ _ ht => simp only [ht, State.raise_regs]
  | halted rs1 _ _ ht => simp only [ht, State.halt_regs]
  | stored u _ _ _ hf ht => simp only [ht, State.advance_regs, hf.regs]
  | full u a c _ _ hf _ _ _ _ ht => simp only [ht, State.raise_regs, hf.regs]

/-- A well-formed instruction takes an even pc to an even pc (R26). -/
theorem exec_pc_even (hw : i.wf = true) (hp : s.pc.getLsbD 0 = false) (h : exec i s = .next t) :
    t.pc.getLsbD 0 = false := by
  cases exec_outcome h with
  | wrote rd v pc' _ _ _ heven ht => rw [ht, State.jump_pc]; exact heven hw hp
  | branched pc' _ _ _ heven ht => rw [ht, State.jump_pc]; exact heven hw hp
  | segfaulted a _ _ _ ht => rw [ht, State.raise_pc]; exact hp
  | halted rs1 _ _ ht => rw [ht, State.halt_pc]; exact hp
  | stored u _ _ _ hf ht => rw [ht, State.advance_pc, hf.pc]; exact even_nextPc hp
  | full u a c _ _ hf _ _ _ _ ht => rw [ht, State.raise_pc, hf.pc]; exact hp

/-- A step either ends the run at once, with nothing but `run` changed, or is the meaning of the instruction
the state runs. -/
theorem step_raise_or_exec (h : step s = .next t) :
    (∃ r, t = s.raise r) ∨ ∃ i, s.runs i ∧ exec i s = .next t := by
  obtain ⟨_, ⟨_, ht⟩ | ⟨_, _, _, ht⟩ | ⟨_, _, _, _, ht⟩ | ⟨w, i, hw, hd, he⟩⟩ := step_cases h
  · exact .inl ⟨_, ht⟩
  · exact .inl ⟨_, ht⟩
  · exact .inl ⟨_, ht⟩
  · exact .inr ⟨i, ⟨w, hw, hd⟩, he⟩

theorem State.runs.wf (h : s.runs i) : i.wf = true := by
  obtain ⟨_, _, hd⟩ := h
  exact decodeWord_wf hd

/-- A step changes the store by byte writes and by nothing else, each to a byte that the instruction the state
runs stores to. -/
theorem step_writeFrame (h : step s = .next t) :
    ∃ u addrs, WriteFrame s u addrs ∧ u.SameStore t ∧ ∀ e ∈ addrs, ∃ i, s.runs i ∧ e ∈ storedBytes i s := by
  rcases step_raise_or_exec h with ⟨r, rfl⟩ | ⟨i, hi, he⟩
  · exact ⟨s, [], .refl s _, s.sameStore_raise r, nofun⟩
  · obtain ⟨u, hf, hut, _⟩ := exec_writeFrame he
    exact ⟨u, storedBytes i s, hf, hut, fun e hmem => ⟨i, hi, hmem⟩⟩

theorem step_slot0 (h : step s = .next t) : t.regs[0] = s.regs[0] := by
  rcases step_raise_or_exec h with ⟨r, rfl⟩ | ⟨i, _, he⟩
  · simp only [State.raise_regs]
  · exact exec_slot0 he

theorem step_pc_even (hp : s.pc.getLsbD 0 = false) (h : step s = .next t) : t.pc.getLsbD 0 = false := by
  rcases step_raise_or_exec h with ⟨r, rfl⟩ | ⟨i, hi, he⟩
  · exact hp
  · exact exec_pc_even hi.wf hp he

/-- In canonical memory, byte writes keep `fill` the number of cells (R31). -/
theorem WriteFrame.fill_eq_length {addrs : List Word} (hf : WriteFrame s t addrs) (hw : s.mem.wf = true)
    (hs : s.fill = s.mem.length) : t.fill = t.mem.length := by
  have hgrow := hf.fillCounts hw
  have hle := hf.fillLe
  omega

end

/-! ## The statements of 10_state.md -/

/-- Settles O43: the memory part is the frame of the step's byte writes, the pc is even because decoded offsets
are, and a step starts from a running machine, whose capacity bound its writes keep. -/
theorem stepKeepsInvariant : Obligations.StepKeepsInvariant := by
  intro s t hinv h
  obtain ⟨u, addrs, hf, hut, _⟩ := step_writeFrame h
  have hrunning : s.run = .running := (step_cases h).1
  exact {
    memWf := by rw [hut.mem]; exact hf.keepsWf hinv.memWf
    fillCounts := by rw [hut.fill, hut.mem]; exact hf.fill_eq_length hinv.memWf hinv.fillCounts
    x0Unwritten := (step_slot0 h).trans hinv.x0Unwritten
    pcEven := step_pc_even hinv.pcEven h
    boundaryInRange := by rw [hut.codeBoundary, hf.codeBoundary]; exact hinv.boundaryInRange
    imageBacked := fun a ha => by
      rw [hut.codeBoundary, hf.codeBoundary] at ha
      rw [hut.mem]
      exact hf.keepsCells a (hinv.imageBacked a ha)
    withinCapacity := fun _ c hc => by
      rw [hut.memCapacity, hf.memCapacity] at hc
      rw [hut.fill]
      exact hf.keepsCapacity c hc (hinv.withinCapacity hrunning c hc) }

/-- Settles O41: the meaning leaves the store alone and writes no register but its destination. -/
theorem frameOfRegisterInstructions : Obligations.FrameOfRegisterInstructions := by
  intro i s t hs h
  have hsame := exec_sameStore hs h
  exact ⟨fun _ hr => exec_readReg_other h hr, t.readReg_zero, fun a => by rw [hsame.mem], hsame.fill,
    hsame.codeBoundary, hsame.pendingFault, hsame.memCapacity⟩

/-- Settles O47: byte writes are all that a step does to the store, and they change neither field. -/
theorem boundaryAndCapacityAreFixed : Obligations.BoundaryAndCapacityAreFixed := by
  intro s t h
  obtain ⟨u, addrs, hf, hut, _⟩ := step_writeFrame h
  exact ⟨hut.codeBoundary.trans hf.codeBoundary, hut.memCapacity.trans hf.memCapacity⟩

/-- Settles O48: byte writes are all that a step does to the store; they keep cells and count new ones. -/
theorem cellsAreNeverDeleted : Obligations.CellsAreNeverDeleted := by
  intro s t h
  obtain ⟨u, addrs, hf, hut, _⟩ := step_writeFrame h
  rw [hut.mem, hut.fill]
  exact ⟨hf.keepsCells, hf.fillLe, fun hinv => (hf.fillCounts hinv.memWf).1⟩

/-- Settles O40: the slot of x0 is neither read nor written, every other register reads back. -/
theorem registerFileReadsBack : Obligations.RegisterFileReadsBack := by
  intro s v
  refine ⟨s.readReg_zero, if_pos rfl, fun rd hrd r => ?_⟩
  rw [State.readReg_writeReg]
  by_cases hr : r = 0#5
  · subst hr
    rw [if_pos rfl, if_neg (Ne.symm hrd), State.readReg_zero]
  · rw [if_neg hr]

end Sys2Proof.Machine

/-! ## No meaning reads the fault flag

Set the flag of the start state to any value: the meaning answers the same state up to the flag. -/

namespace Sys2Proof.Machine

/-- The state with its fault flag (R29) set to `f`. -/
def State.setFlag (s : State) (f : Bool) : State := { s with pendingFault := f }

/-- A write's answer with the fault flag of the state in it set to `f`. -/
def WriteResult.setFlag (r : WriteResult) (f : Bool) : WriteResult :=
  match r with
  | .stored t => .stored (t.setFlag f)
  | .full t a => .full (t.setFlag f) a

/-- Wherever `r` answers a next state, `r'` answers it too, but for the fault flag. -/
def SameUpToFlag (r r' : Result) : Prop := ∀ t, r = .next t → ∃ g, r' = .next (t.setFlag g)

variable (s : State) (f : Bool)

theorem State.writeReg_setFlag (r : RegIx) (v : Word) :
    (s.setFlag f).writeReg r v = (s.writeReg r v).setFlag f := by
  unfold State.writeReg
  split <;> rfl

/-- `write8` does not consult the flag: it reads the cell and the capacity. -/
theorem State.write8_setFlag (a : Word) (v : Byte) :
    (s.setFlag f).write8 a v = (s.write8 a v).setFlag ((s.setFlag f).flagAfterWrite a) := by
  unfold State.write8
  simp only [State.byteAt, State.setFlag]
  cases s.mem.read a.toNat with
  | some _ => rfl
  | none =>
    show (if s.atCapacity then _ else _) = WriteResult.setFlag (if s.atCapacity then _ else _) _
    cases s.atCapacity <;> rfl

theorem State.writeBytes_setFlag (a : Word) (bs : List Byte) :
    ∃ g, (s.setFlag f).writeBytes a bs = (s.writeBytes a bs).setFlag g := by
  induction bs generalizing s f a with
  | nil => exact ⟨f, rfl⟩
  | cons b rest ih =>
    simp only [State.writeBytes, State.write8_setFlag]
    cases s.write8 a b with
    | stored t => exact ih t _ _
    | full t e => exact ⟨_, rfl⟩

theorem sameUpToFlag_finishReg (rd : RegIx) (v : Word) :
    SameUpToFlag (finishReg rd v s) (finishReg rd v (s.setFlag f)) := by
  rintro t ⟨⟩
  exact ⟨f, by rw [finishReg, State.writeReg_setFlag]; rfl⟩

theorem sameUpToFlag_linkJump (rd : RegIx) (v pc' : Word) :
    SameUpToFlag (.next ((s.writeReg rd v).jump pc')) (.next (((s.setFlag f).writeReg rd v).jump pc')) := by
  rintro t ⟨⟩
  exact ⟨f, by rw [State.writeReg_setFlag]; rfl⟩

theorem sameUpToFlag_finishLoad (inst : Word) (rd : RegIx) (r : ReadResult Word) :
    SameUpToFlag (finishLoad inst rd r s) (finishLoad inst rd r (s.setFlag f)) := by
  cases r with
  | ok v => exact sameUpToFlag_finishReg s f rd v
  | absent a => rintro t ⟨⟩; exact ⟨f, rfl⟩

theorem sameUpToFlag_finishBranch (b : Bool) (off : BitVec 13) :
    SameUpToFlag (finishBranch b off s) (finishBranch b off (s.setFlag f)) := by
  cases b <;> rintro t ⟨⟩ <;> exact ⟨f, rfl⟩

theorem sameUpToFlag_finishStore (inst : Word) {r r' : WriteResult} (h : ∃ g, r' = r.setFlag g) :
    SameUpToFlag (finishStore inst r) (finishStore inst r') := by
  obtain ⟨g, rfl⟩ := h
  cases r <;> rintro t ⟨⟩ <;> exact ⟨g, rfl⟩

theorem sameUpToFlag_execJalr (rd rs1 : RegIx) (imm : BitVec 12) :
    SameUpToFlag (execJalr rd rs1 imm s) (execJalr rd rs1 imm (s.setFlag f)) := by
  have hsent : (s.setFlag f).isSentinel rd rs1 imm = s.isSentinel rd rs1 imm := rfl
  unfold execJalr
  rw [hsent]
  split
  · rintro t ⟨⟩
    exact ⟨f, rfl⟩
  · exact sameUpToFlag_linkJump s f rd s.nextPc (s.jalrTarget rs1 imm)

/-- No meaning reads the fault flag (R29): its operands, its branch condition, its read and its end are those of
the state whatever the flag. -/
theorem sameUpToFlag_exec (i : Instr) : SameUpToFlag (exec i s) (exec i (s.setFlag f)) := by
  cases i with
  | jal rd off => exact sameUpToFlag_linkJump s f rd s.nextPc (s.pc + immJ off)
  | jalr rd rs1 imm => exact sameUpToFlag_execJalr s f rd rs1 imm
  | beq _ _ _ => exact sameUpToFlag_finishBranch s f _ _
  | bne _ _ _ => exact sameUpToFlag_finishBranch s f _ _
  | blt _ _ _ => exact sameUpToFlag_finishBranch s f _ _
  | bge _ _ _ => exact sameUpToFlag_finishBranch s f _ _
  | bltu _ _ _ => exact sameUpToFlag_finishBranch s f _ _
  | bgeu _ _ _ => exact sameUpToFlag_finishBranch s f _ _
  | lb _ _ _ => exact sameUpToFlag_finishLoad s f _ _ _
  | lw _ _ _ => exact sameUpToFlag_finishLoad s f _ _ _
  | lbu _ _ _ => exact sameUpToFlag_finishLoad s f _ _ _
  | lhu _ _ _ => exact sameUpToFlag_finishLoad s f _ _ _
  | sb rs1 rs2 imm => exact sameUpToFlag_finishStore _ ⟨_, State.write8_setFlag s f _ _⟩
  | sw rs1 rs2 imm => exact sameUpToFlag_finishStore _ (State.writeBytes_setFlag s f _ _)
  | lui _ _ => exact sameUpToFlag_finishReg s f _ _
  | auipc _ _ => exact sameUpToFlag_finishReg s f _ _
  | addi _ _ _ => exact sameUpToFlag_finishReg s f _ _
  | xori _ _ _ => exact sameUpToFlag_finishReg s f _ _
  | ori _ _ _ => exact sameUpToFlag_finishReg s f _ _
  | andi _ _ _ => exact sameUpToFlag_finishReg s f _ _
  | slli _ _ _ => exact sameUpToFlag_finishReg s f _ _
  | srli _ _ _ => exact sameUpToFlag_finishReg s f _ _
  | srai _ _ _ => exact sameUpToFlag_finishReg s f _ _
  | add _ _ _ => exact sameUpToFlag_finishReg s f _ _
  | sub _ _ _ => exact sameUpToFlag_finishReg s f _ _

end Sys2Proof.Machine

/-! ## The life of the fault flag -/

namespace Sys2Proof.Machine

/-- The load sequence clears the flag (R250). -/
theorem load_pendingFault {cap : Option Nat} {img : List Byte} {s : State} (h : load cap img = .next s) :
    s.pendingFault = false := by
  unfold load at h
  split at h <;> cases h
  rfl

/-- The checkpoint: with the flag set, a running machine ends with IllegalWrite before any fetch (R90, R203). -/
theorem step_of_pendingFault {s : State} (hr : s.run = .running) (hp : s.pendingFault = true) :
    step s = .next (s.raise (.illegalWrite s.pc)) := by
  rw [step_of_running hr, runningCycle, if_pos hp]

/-- A step that sets the flag runs a store with a byte below the boundary. -/
theorem step_sets_pendingFault {s t : State} (h : step s = .next t) (hs : s.pendingFault = false)
    (ht : t.pendingFault = true) : ∃ i e, s.runs i ∧ e ∈ storedBytes i s ∧ e.toNat < s.codeBoundary := by
  obtain ⟨u, addrs, hf, hut, haddrs⟩ := step_writeFrame h
  rw [hut.pendingFault] at ht
  rcases hf.flagFrom ht with hset | ⟨e, he, hlt⟩
  · rw [hs] at hset
    cases hset
  · obtain ⟨i, hi, hmem⟩ := haddrs e he
    exact ⟨i, e, hi, hmem, hlt⟩

/-- No step clears the flag (R29). -/
theorem step_keeps_pendingFault {s t : State} (h : step s = .next t) (hs : s.pendingFault = true) :
    t.pendingFault = true := by
  obtain ⟨u, addrs, hf, hut, _⟩ := step_writeFrame h
  rw [hut.pendingFault]
  exact hf.keepsFlag hs

/-- Settles O49: the flag's start, its setting and keeping, its checkpoint, and that no meaning reads it. -/
theorem faultFlagIsSetOnlyByIllegalWrites : Obligations.FaultFlagIsSetOnlyByIllegalWrites := by
  refine ⟨fun _ _ _ => load_pendingFault,
    fun s t h => ⟨step_keeps_pendingFault h, step_sets_pendingFault h⟩,
    fun s hr hp => ⟨s.pc, step_of_pendingFault hr hp⟩, fun i s t f h => ?_⟩
  obtain ⟨g, hg⟩ := sameUpToFlag_exec s f i t h
  exact ⟨t.setFlag g, hg, rfl⟩

end Sys2Proof.Machine

/-! ## The value of bytes put together -/

namespace Sys2Proof

/-- A concatenation is its upper part times the weight of its place, plus its lower part. -/
theorem toNat_append_eq_add {m n : Nat} (x : BitVec m) (y : BitVec n) :
    (x ++ y).toNat = x.toNat * 2 ^ n + y.toNat := by
  rw [BitVec.toNat_append, ← Nat.shiftLeft_add_eq_or_of_lt y.isLt, Nat.shiftLeft_eq]

variable (b0 b1 b2 b3 : Byte)

/-- The little-endian value of two bytes (R44). -/
theorem toNat_half_of_bytes : (b1 ++ b0 : Half).toNat = b0.toNat + 256 * b1.toNat := by
  have h := toNat_append_eq_add b1 b0
  omega

/-- The little-endian value of four bytes, read as two halves (R44). -/
theorem toNat_word_of_halves : ((b3 ++ b2) ++ (b1 ++ b0) : Word).toNat =
    b0.toNat + 256 * b1.toNat + 65536 * b2.toNat + 16777216 * b3.toNat := by
  have h := toNat_append_eq_add (b3 ++ b2) (b1 ++ b0)
  have hlow := toNat_half_of_bytes b0 b1
  have hhigh := toNat_half_of_bytes b2 b3
  omega

/-- Two halves of two bytes are the four bytes in a row. -/
theorem halves_eq_wordOfBytes : ((b3 ++ b2) ++ (b1 ++ b0) : Word) = wordOfBytes b0 b1 b2 b3 := by
  apply BitVec.eq_of_toNat_eq
  rw [toNat_word_of_halves]
  have h3 := toNat_append_eq_add (b3 ++ b2 ++ b1) b0
  have h2 := toNat_append_eq_add (b3 ++ b2) b1
  have h1 := toNat_append_eq_add b3 b2
  change _ = (b3 ++ b2 ++ b1 ++ b0).toNat
  omega

@[simp] theorem length_bytesOf (w : Word) : (bytesOf w).length = 4 := rfl

end Sys2Proof

/-! ## A read names its first absent byte -/

namespace Sys2Proof.Machine

section
variable {s : State} {a : Word} {k : Nat}

/-- The bytes before the first absent one hold cells. -/
theorem State.firstAbsent.backed_below (h : s.firstAbsent a k) {j : Nat} (hj : j < k) :
    ∃ b, s.byteAt (a + BitVec.ofNat 32 j) = some b :=
  Option.isSome_iff_exists.1 (h.1 j hj)

/-- The first absent byte of an access, seen from a later byte of it that is not past the absent one. -/
theorem State.firstAbsent.from_byte {m : Nat} (h : s.firstAbsent a (m + k)) :
    s.firstAbsent (a + BitVec.ofNat 32 m) k := by
  have hadd (j : Nat) : a + BitVec.ofNat 32 m + BitVec.ofNat 32 j = a + BitVec.ofNat 32 (m + j) := by
    rw [BitVec.add_assoc, BitVec.ofNat_add]
  exact ⟨fun j hj => hadd j ▸ h.1 (m + j) (by omega), hadd k ▸ h.2⟩

/-- `MemRead(a, 1)` of an absent byte. -/
theorem State.read8_firstAbsent (h : s.firstAbsent a 0) : s.read8 a = .absent a := by
  have hnone : s.byteAt (a + 0#32) = none := h.2
  rw [BitVec.add_zero] at hnone
  exact State.read8_absent.2 ⟨rfl, hnone⟩

/-- `MemRead(a, 2)` answers the first absent of its two bytes (R43, R44). -/
theorem State.read16_firstAbsent (hk : k < 2) (h : s.firstAbsent a k) :
    s.read16 a = .absent (a + BitVec.ofNat 32 k) := by
  match k, hk with
  | 0, _ => simp [State.read16, State.read8_firstAbsent h]
  | 1, _ =>
    obtain ⟨b0, h0⟩ := h.backed_below Nat.zero_lt_one
    rw [BitVec.add_zero] at h0
    simp [State.read16, State.read8_ok.2 h0, State.read8_firstAbsent h.from_byte]

/-- `MemRead(a, 4)` answers the first absent of its four bytes: of the lower half if one is there, else of the
upper half. -/
theorem State.read32_firstAbsent (hk : k < 4) (h : s.firstAbsent a k) :
    s.read32 a = .absent (a + BitVec.ofNat 32 k) := by
  by_cases hlow : k < 2
  · simp only [State.read32, State.read16_firstAbsent hlow h]
  · obtain ⟨j, rfl⟩ := Nat.exists_eq_add_of_le (Nat.le_of_not_lt hlow)
    obtain ⟨b0, h0⟩ := h.backed_below (show 0 < 2 + j by omega)
    obtain ⟨b1, h1⟩ := h.backed_below (show 1 < 2 + j by omega)
    rw [BitVec.add_zero] at h0
    have hhigh := State.read16_firstAbsent (by omega) h.from_byte
    rw [BitVec.add_assoc, ← BitVec.ofNat_add] at hhigh
    simp only [State.read32, State.read16_of_bytes h0 h1, hhigh]

end

/-! ## What `write8` answers: a store where there is a cell or room for one -/

section
variable {s : State} {a : Word} {v : Byte}

/-- Room for one more cell (R31, R62). -/
theorem State.atCapacity_eq_false_iff :
    s.atCapacity = false ↔ ∀ c, s.memCapacity = some c → s.fill < c := by
  unfold State.atCapacity
  cases s.memCapacity <;> simp

theorem State.atCapacity_of_fill (h : s.memCapacity = some s.fill) : s.atCapacity = true := by
  simp [State.atCapacity, h]

/-- The state after `write8` has stored the byte `v` at `a` (R45). -/
def State.withByte (s : State) (a : Word) (v : Byte) : State :=
  { s with
    pendingFault := s.flagAfterWrite a
    mem := s.mem.write a.toNat v
    fill := s.fill + if (s.byteAt a).isSome then 0 else 1 }

/-- `write8` stores where there is a cell to update or room for a new one. -/
theorem State.write8_eq_stored (h : s.byteAt a = none → s.atCapacity = false) :
    s.write8 a v = .stored (s.withByte a v) := by
  rcases State.write8_cases s a v with ⟨hb, hw⟩ | ⟨hb, hc, _⟩ | ⟨hb, _, hw⟩
  · rw [hw, State.withByte, if_pos hb, Nat.add_zero]
  · rw [h hb] at hc
    cases hc
  · simp [hw, State.withByte, hb]

/-- With a cell needed and none left, `write8` sets the flag and changes nothing else. -/
theorem State.write8_eq_full (hb : s.byteAt a = none) (hc : s.atCapacity = true) :
    s.write8 a v = .full { s with pendingFault := s.flagAfterWrite a } a := by
  rcases State.write8_cases s a v with ⟨hsome, _⟩ | ⟨_, _, hw⟩ | ⟨_, hroom, _⟩
  · simp [hb] at hsome
  · exact hw
  · rw [hc] at hroom
    cases hroom

/-- Reading a byte after one is stored. -/
theorem State.byteAt_withByte (b : Word) :
    (s.withByte a v).byteAt b = if b = a then some v else s.byteAt b := by
  simp only [State.byteAt, State.withByte, Memory.read_write]
  by_cases h : b = a
  · simp [h]
  · simp [h, toNat_ne_of_ne h]

end

/-! ## Multi-byte writes that find room for every byte -/

section
variable {s t : State} {a : Word}

/-- The cells a store creates, counted from its first byte on. -/
theorem State.newCells_succ (s : State) (a : Word) (n : Nat) :
    s.newCells a (n + 1) = (if (s.byteAt a).isSome then 0 else 1) + s.newCells (a + 1#32) n := by
  unfold State.newCells
  rw [span_succ]
  cases h : s.byteAt a <;> simp [h, Nat.add_comm]

/-- Storing a byte outside an access leaves the number of cells the access needs. -/
theorem State.newCells_withByte {n : Nat} {b : Word} {v : Byte} (h : b ∉ span a n) :
    (s.withByte b v).newCells a n = s.newCells a n := by
  unfold State.newCells
  congr 1
  apply List.filter_congr
  intro e he
  have hne : e ≠ b := fun heq => h (heq ▸ he)
  rw [State.byteAt_withByte, if_neg hne]

/-- A store with room for all its bytes has room for the first. -/
theorem State.hasRoom.first {n : Nat} (h : s.hasRoom a (n + 1)) (hb : s.byteAt a = none) :
    s.atCapacity = false := by
  rw [State.atCapacity_eq_false_iff]
  intro c hc
  have hroom := h c hc
  simp only [State.newCells_succ, hb, Option.isSome_none, Bool.false_eq_true, if_false] at hroom
  omega

/-- After its first byte is stored, a store with room for all its bytes has room for the others. -/
theorem State.hasRoom.rest {n : Nat} {v : Byte} (hn : n < 4294967296) (h : s.hasRoom a (n + 1)) :
    (s.withByte a v).hasRoom (a + 1#32) n := by
  intro c hc
  rw [State.newCells_withByte (not_mem_span_next hn)]
  have hroom := h c hc
  rw [State.newCells_succ] at hroom
  simp only [State.withByte]
  omega

/-- A write with room for every byte runs to its end. -/
theorem State.writeBytes_of_hasRoom {bs : List Byte} (hn : bs.length ≤ 4294967296)
    (h : s.hasRoom a bs.length) : ∃ t, s.writeBytes a bs = .stored t := by
  induction bs generalizing s a with
  | nil => exact ⟨s, rfl⟩
  | cons b rest ih =>
    rw [List.length_cons] at hn h
    simp only [State.writeBytes, State.write8_eq_stored h.first]
    exact ih (by omega) (h.rest hn)

/-- The frame of a write that ran to its end. -/
theorem State.writeBytes_stored_frame {bs : List Byte} (h : s.writeBytes a bs = .stored t) :
    WriteFrame s t (span a bs.length) := by
  have hframe := State.writeBytes_frame s a bs
  rwa [h, WriteResult.state_stored] at hframe

/-- A write that ran to its end has stored each of its bytes at its address: the later writes are at other
addresses. -/
theorem State.writeBytes_stored_byte {bs : List Byte} (hn : bs.length ≤ 4294967296)
    (h : s.writeBytes a bs = .stored t) {k : Nat} (hk : k < bs.length) :
    t.byteAt (a + BitVec.ofNat 32 k) = some bs[k] := by
  induction bs generalizing s a k with
  | nil => cases hk
  | cons b rest ih =>
    rw [List.length_cons] at hn hk
    rw [State.writeBytes] at h
    cases h8 : s.write8 a b with
    | full u e => simp [h8] at h
    | stored u =>
      simp only [h8] at h
      cases k with
      | zero =>
        rw [BitVec.add_zero, List.getElem_cons_zero, ← State.write8_stored_byte h8]
        exact (State.writeBytes_stored_frame h).readOther a.toNat fun e he heq =>
          not_mem_span_next hn (BitVec.eq_of_toNat_eq heq ▸ he)
      | succ j =>
        have hj := ih (Nat.le_of_lt hn) h (Nat.lt_of_succ_lt_succ hk)
        rw [BitVec.add_assoc, BitVec.add_comm 1#32, ← BitVec.ofNat_add] at hj
        exact hj

/-- Four bytes in a row that are those of a word read as that word (R44, R46, R49). -/
theorem State.read32_of_bytesOf {w : Word}
    (h : ∀ k, k < 4 → s.byteAt (a + BitVec.ofNat 32 k) = some (byteOf w k)) : s.read32 a = .ok w := by
  have h0 := h 0 (by decide)
  rw [BitVec.add_zero] at h0
  rw [State.read32_of_bytes h0 (h 1 (by decide)) (h 2 (by decide)) (h 3 (by decide)),
    halves_eq_wordOfBytes, wordOfBytes_byteOf]

/-- `MemWrite(a, 4, w)` with room for its bytes stores them, and `MemRead(a, 4)` then answers `w` (R49). -/
theorem State.memWrite32_reads_back {w : Word} (h : s.hasRoom a 4) :
    ∃ t, s.memWrite32 a w = .stored t ∧ t.read32 a = .ok w := by
  have hlen : (bytesOf w).length ≤ 4294967296 := by rw [length_bytesOf]; decide
  obtain ⟨t, ht⟩ := State.writeBytes_of_hasRoom hlen h
  refine ⟨t, ht, State.read32_of_bytesOf fun k hk => ?_⟩
  rw [State.writeBytes_stored_byte hlen ht hk]
  interval_cases k <;> rfl

end

/-! ## The statements of 20_memory.md -/

/-- Settles O36: the store runs to its end and changes no register, so LW reads at the address of SW the four
bytes of the stored register. -/
theorem storedWordLoadsBack : Obligations.StoredWordLoadsBack := by
  intro s rs1 rs2 rd imm hroom
  obtain ⟨t, ht, hread⟩ := State.memWrite32_reads_back (w := s.readReg rs2) hroom
  have hframe := State.writeBytes_stored_frame ht
  have hstore : exec (.sw rs1 rs2 imm) s = .next t.advance := by
    simp only [exec, execSw, ht, finishStore]
  have haddr : t.advance.loadAddr rs1 imm = s.storeAddr rs1 imm := by
    rw [State.loadAddr, State.advance_readReg, State.readReg_congr hframe.regs]
    rfl
  have hload : exec (.lw rd rs1 imm) t.advance = finishReg rd (s.readReg rs2) t.advance := by
    simp only [exec, execLw, haddr, State.read32_congr t.advance_mem, hread, finishLoad]
  refine ⟨t.advance, _, hstore, hload, ?_, ?_⟩
  · rw [State.advance_readReg, State.readReg_writeReg]
    by_cases hrd : rd = 0#5 <;> simp [hrd]
  · rw [State.advance_run, State.writeReg_run, State.advance_run, hframe.run]

/-- Settles O37: backed bytes by the value of a concatenation, absent ones by the first absent byte. -/
theorem readPrimitive : Obligations.ReadPrimitive := by
  intro s a
  exact ⟨fun _ => State.read8_ok,
    fun b0 b1 h0 h1 => ⟨_, State.read16_of_bytes h0 h1, toNat_half_of_bytes b0 b1⟩,
    fun b0 b1 b2 b3 h0 h1 h2 h3 => ⟨_, State.read32_of_bytes h0 h1 h2 h3, toNat_word_of_halves b0 b1 b2 b3⟩,
    State.read8_firstAbsent, fun _ => State.read16_firstAbsent, fun _ => State.read32_firstAbsent⟩

/-- Settles O38: the two answers of `write8`, by whether a cell is needed that is not to be had. -/
theorem bytePrimitiveWrites : Obligations.BytePrimitiveWrites := by
  intro s a v
  have hflag := State.flagAfterWrite_iff s a
  constructor
  · intro hcell
    have hroom : s.byteAt a = none → s.atCapacity = false := by
      intro hb
      rw [State.atCapacity_eq_false_iff]
      rcases hcell with hsome | hunbounded | ⟨c, hc, hlt⟩
      · simp [hb] at hsome
      · simp [hunbounded]
      · simp [hc, hlt]
    have hother : ∀ b : Nat, b ≠ a.toNat → (s.withByte a v).mem.read b = s.mem.read b :=
      fun _ hb => Memory.read_write_other _ hb v
    have hstored := State.write8_eq_stored (v := v) hroom
    exact ⟨s.withByte a v, hstored, State.write8_stored_byte hstored, hother, rfl, hflag, rfl, rfl, rfl, rfl, rfl⟩
  · intro hb hcap
    exact ⟨_, State.write8_eq_full hb (State.atCapacity_of_fill hcap), rfl, rfl, hflag, rfl, rfl, rfl, rfl, rfl⟩

/-- Settles O39: the invariant backs every address of the image, so the write finds its cell. -/
theorem illegalWriteUpdatesInPlace : Obligations.IllegalWriteUpdatesInPlace := by
  intro s a v hinv ha
  have hcell : (s.byteAt a).isSome = true := hinv.imageBacked a.toNat ha
  have hstored : s.write8 a v = .stored (s.withByte a v) :=
    State.write8_eq_stored fun hb => absurd hb (Option.isSome_iff_ne_none.1 hcell)
  refine ⟨s.withByte a v, hstored, State.write8_stored_byte hstored, ?_,
    (State.flagAfterWrite_iff s a).2 (.inr ha), ?_⟩
  · simp only [State.withByte, hcell, if_true, Nat.add_zero]
  · have hlength := Memory.length_write (a := a.toNat) v hinv.memWf
    rwa [show (s.mem.read a.toNat).isSome = true from hcell, if_pos rfl] at hlength

/-- Settles O50: the bytes a step writes are stored bytes of the instruction it runs, and any other address
reads as before. -/
theorem memoryChangesOnlyByStores : Obligations.MemoryChangesOnlyByStores := by
  intro s t a h hchanged
  obtain ⟨u, addrs, hframe, hut, haddrs⟩ := step_writeFrame h
  by_contra hnone
  refine hchanged ?_
  rw [hut.mem]
  refine hframe.readOther a fun e he heq => hnone ?_
  obtain ⟨i, hi, hmem⟩ := haddrs e he
  exact ⟨i, e, hi, hmem, heq.symm⟩

end Sys2Proof.Machine

/-! ## The decoder by major opcode -/

namespace Sys2Proof

section
variable {w w' : Word}

theorem decodeWord_of_opLui (h : opcodeOf w = opLui) : decodeWord w = .ok (.lui (rdOf w) (immUOf w)) :=
  if_pos h

theorem decodeWord_of_opAuipc (h : opcodeOf w = opAuipc) :
    decodeWord w = .ok (.auipc (rdOf w) (immUOf w)) := by
  simp [decodeWord, h, opLui, opAuipc]

theorem decodeWord_of_opJal (h : opcodeOf w = opJal) : decodeWord w = .ok (.jal (rdOf w) (immJOf w)) := by
  simp [decodeWord, h, opLui, opAuipc, opJal]

theorem decodeWord_of_opJalr (h : opcodeOf w = opJalr) :
    decodeWord w = if funct3Of w = 0b000#3 then .ok (.jalr (rdOf w) (rs1Of w) (immIOf w))
      else .unknown .jalrFunct3 := by
  simp [decodeWord, h, opLui, opAuipc, opJal, opJalr]

theorem decodeWord_of_opBranch (h : opcodeOf w = opBranch) : decodeWord w = decodeBranch w := by
  simp [decodeWord, h, opLui, opAuipc, opJal, opJalr, opBranch]

theorem decodeWord_of_opLoad (h : opcodeOf w = opLoad) : decodeWord w = decodeLoad w := by
  simp [decodeWord, h, opLui, opAuipc, opJal, opJalr, opBranch, opLoad]

theorem decodeWord_of_opStore (h : opcodeOf w = opStore) : decodeWord w = decodeStore w := by
  simp [decodeWord, h, opLui, opAuipc, opJal, opJalr, opBranch, opLoad, opStore]

theorem decodeWord_of_opOpImm (h : opcodeOf w = opOpImm) : decodeWord w = decodeOpImm w := by
  simp [decodeWord, h, opLui, opAuipc, opJal, opJalr, opBranch, opLoad, opStore, opOpImm]

theorem decodeWord_of_opOp (h : opcodeOf w = opOp) : decodeWord w = decodeOp w := by
  simp [decodeWord, h, opLui, opAuipc, opJal, opJalr, opBranch, opLoad, opStore, opOpImm, opOp]

end

/-! ## Decode of encode -/

/-- R82 on the words of the encoder: the opcode and funct3 it writes select the instruction, and each operand is
read back from its field. -/
theorem decodeWord_encode {i : Instr} (h : i.wf = true) : decodeWord (encode i) = .ok i := by
  cases i with
  | lui rd imm => simp only [encode, decodeWord_of_opLui, opcodeOf_encodeU, rdOf_encodeU, immUOf_encodeU]
  | auipc rd imm => simp only [encode, decodeWord_of_opAuipc, opcodeOf_encodeU, rdOf_encodeU, immUOf_encodeU]
  | jal rd off =>
    have he := immJOf_encodeJ off opJal rd (Machine.even_of_evenOffset h)
    simp only [encode, decodeWord_of_opJal, opcodeOf_encodeJ, rdOf_encodeJ, he]
  | jalr rd rs1 imm =>
    simp [encode, decodeWord_of_opJalr, opcodeOf_encodeI, funct3Of_encodeI, rdOf_encodeI, rs1Of_encodeI,
      immIOf_encodeI]
  | beq _ _ off | bne _ _ off | blt _ _ off | bge _ _ off | bltu _ _ off | bgeu _ _ off =>
    have hoff := fun f3 rs1 rs2 => immBOf_encodeB off opBranch f3 rs1 rs2 (Machine.even_of_evenOffset h)
    simp [encode, decodeWord_of_opBranch, decodeBranch, opcodeOf_encodeB, funct3Of_encodeB, rs1Of_encodeB,
      rs2Of_encodeB, hoff]
  | lb _ _ _ | lw _ _ _ | lbu _ _ _ | lhu _ _ _ =>
    simp [encode, decodeWord_of_opLoad, decodeLoad, opcodeOf_encodeI, funct3Of_encodeI, rdOf_encodeI,
      rs1Of_encodeI, immIOf_encodeI]
  | sb _ _ _ | sw _ _ _ =>
    simp [encode, decodeWord_of_opStore, decodeStore, opcodeOf_encodeS, funct3Of_encodeS, rs1Of_encodeS,
      rs2Of_encodeS, immSOf_encodeS]
  | addi _ _ _ | xori _ _ _ | ori _ _ _ | andi _ _ _ =>
    simp [encode, decodeWord_of_opOpImm, decodeOpImm, opcodeOf_encodeI, funct3Of_encodeI, rdOf_encodeI,
      rs1Of_encodeI, immIOf_encodeI]
  | slli _ _ _ | srli _ _ _ | srai _ _ _ =>
    simp [encode, decodeWord_of_opOpImm, decodeOpImm, opcodeOf_encodeR, funct3Of_encodeR, bit30Of_encodeR,
      rdOf_encodeR, rs1Of_encodeR, shamtOf_encodeR]
  | add _ _ _ | sub _ _ _ =>
    simp [encode, decodeWord_of_opOp, decodeOp, opcodeOf_encodeR, funct3Of_encodeR, bit30Of_encodeR,
      rdOf_encodeR, rs1Of_encodeR, rs2Of_encodeR]

/-- Settles O1: the four bytes are put together to the word of the encoder, and that decodes to the
instruction. -/
theorem decodeOfEncode : Obligations.DecodeOfEncode := by
  intro i rest h
  rw [decode_bytesOf, decodeWord_encode h]

/-- Settles O2: the decoder's offsets end in a constant 0 bit. -/
theorem decodedInstructionIsWellFormed : Obligations.DecodedInstructionIsWellFormed :=
  fun _ _ => decodeWord_wf

end Sys2Proof

/-! ## Encode of decode -/

namespace Sys2Proof

/-! ### A word is put together again from its fields -/

section
variable {w : Word} {op : BitVec 7} {f3 : BitVec 3}

theorem encodeU_fields (hop : opcodeOf w = op) : encodeU (immUOf w) (rdOf w) op = w := by
  subst hop
  refine BitVec.eq_of_getLsbD_eq fun k hk => ?_
  simp only [getLsbD_encodeU, immUOf, rdOf, opcodeOf, BitVec.getLsbD_extractLsb']
  grind

theorem encodeJ_fields (hop : opcodeOf w = op) : encodeJ (immJOf w) (rdOf w) op = w := by
  subst hop
  refine BitVec.eq_of_getLsbD_eq fun k hk => ?_
  simp only [getLsbD_encodeJ, getLsbD_immJOf, rdOf, opcodeOf, BitVec.getLsbD_extractLsb']
  grind

theorem encodeI_fields (hop : opcodeOf w = op) (hf3 : funct3Of w = f3) :
    encodeI (immIOf w) (rs1Of w) f3 (rdOf w) op = w := by
  subst hop hf3
  refine BitVec.eq_of_getLsbD_eq fun k hk => ?_
  simp only [getLsbD_encodeI, immIOf, rs1Of, funct3Of, rdOf, opcodeOf, BitVec.getLsbD_extractLsb']
  grind

theorem encodeS_fields (hop : opcodeOf w = op) (hf3 : funct3Of w = f3) :
    encodeS (immSOf w) (rs2Of w) (rs1Of w) f3 op = w := by
  subst hop hf3
  refine BitVec.eq_of_getLsbD_eq fun k hk => ?_
  simp only [getLsbD_encodeS, getLsbD_immSOf, rs2Of, rs1Of, funct3Of, opcodeOf, BitVec.getLsbD_extractLsb']
  grind

theorem encodeB_fields (hop : opcodeOf w = op) (hf3 : funct3Of w = f3) :
    encodeB (immBOf w) (rs2Of w) (rs1Of w) f3 op = w := by
  subst hop hf3
  refine BitVec.eq_of_getLsbD_eq fun k hk => ?_
  simp only [getLsbD_encodeB, getLsbD_immBOf, rs2Of, rs1Of, funct3Of, opcodeOf, BitVec.getLsbD_extractLsb']
  grind

end

/-! ### Agreement under the masks of R82 -/

section
variable {w w' : Word}

/-- Two words agree under a mask when they agree in each of its bits. -/
theorem and_mask_eq_iff (m : Word) : w' &&& m = w &&& m ↔
    ∀ k, k < 32 → m.getLsbD k = true → w'.getLsbD k = w.getLsbD k := by
  constructor
  · intro h k _ hm
    have hbit := congrArg (BitVec.getLsbD · k) h
    simpa only [BitVec.getLsbD_and, hm, Bool.and_true] using hbit
  · intro h
    refine BitVec.eq_of_getLsbD_eq fun k hk => ?_
    rw [BitVec.getLsbD_and, BitVec.getLsbD_and]
    cases hm : m.getLsbD k with
    | false => rw [Bool.and_false, Bool.and_false]
    | true => rw [h k hk hm]

/-- The words agree in the 25 bits below funct7. -/
def AgreeBelowFunct7 (w' w : Word) : Prop := ∀ k, k < 25 → w'.getLsbD k = w.getLsbD k

/-- SLLI's mask. -/
theorem and_mask25_eq_iff : w' &&& 0x01FFFFFF#32 = w &&& 0x01FFFFFF#32 ↔ AgreeBelowFunct7 w' w := by
  have hmask : ∀ k, k < 32 → ((0x01FFFFFF#32).getLsbD k = true ↔ k < 25) := by decide
  rw [and_mask_eq_iff]
  exact ⟨fun h k hk => h k (by omega) ((hmask k (by omega)).2 hk), fun h k hk hm => h k ((hmask k hk).1 hm)⟩

/-- The mask of SRLI, SRAI, ADD and SUB. -/
theorem and_mask25_30_eq_iff : w' &&& 0x41FFFFFF#32 = w &&& 0x41FFFFFF#32 ↔
    AgreeBelowFunct7 w' w ∧ bit30Of w' = bit30Of w := by
  have hmask : ∀ k, k < 32 → ((0x41FFFFFF#32).getLsbD k = true ↔ k < 25 ∨ k = 30) := by decide
  rw [and_mask_eq_iff]
  constructor
  · intro h
    exact ⟨fun k hk => h k (by omega) ((hmask k (by omega)).2 (.inl hk)), h 30 (by decide) rfl⟩
  · rintro ⟨hlow, h30⟩ k hk hm
    rcases (hmask k hk).1 hm with hk | rfl
    · exact hlow k hk
    · exact h30

theorem AgreeBelowFunct7.extractLsb'_eq (h : AgreeBelowFunct7 w' w) {start len : Nat} (hle : start + len ≤ 25) :
    w'.extractLsb' start len = w.extractLsb' start len := by
  refine BitVec.eq_of_getLsbD_eq fun k hk => ?_
  rw [BitVec.getLsbD_extractLsb', BitVec.getLsbD_extractLsb', h (start + k) (by omega)]

/-- Words that agree below funct7 have every field of an R-type word but funct7 in common. -/
theorem AgreeBelowFunct7.fields_eq (h : AgreeBelowFunct7 w' w) :
    opcodeOf w' = opcodeOf w ∧ rdOf w' = rdOf w ∧ funct3Of w' = funct3Of w ∧ rs1Of w' = rs1Of w ∧
      rs2Of w' = rs2Of w ∧ shamtOf w' = shamtOf w :=
  ⟨h.extractLsb'_eq (by decide), h.extractLsb'_eq (by decide), h.extractLsb'_eq (by decide),
    h.extractLsb'_eq (by decide), h.extractLsb'_eq (by decide), h.extractLsb'_eq (by decide)⟩

/-- SLLI reads nothing above its shift amount (R82). -/
theorem AgreeBelowFunct7.decodeWord_slli_eq (h : AgreeBelowFunct7 w' w) (hop : opcodeOf w = opOpImm)
    (hf3 : funct3Of w = 1#3) : decodeWord w' = decodeWord w := by
  obtain ⟨hop', hrd, hf3', hrs1, _, hsh⟩ := h.fields_eq
  rw [decodeWord_of_opOpImm hop, decodeWord_of_opOpImm (hop'.trans hop)]
  simp [decodeOpImm, hf3', hf3, hrd, hrs1, hsh]

/-- SRLI and SRAI read bit 30 and nothing else above their shift amount (R82). -/
theorem AgreeBelowFunct7.decodeWord_shiftRight_eq (h : AgreeBelowFunct7 w' w) (h30 : bit30Of w' = bit30Of w)
    (hop : opcodeOf w = opOpImm) (hf3 : funct3Of w = 5#3) : decodeWord w' = decodeWord w := by
  obtain ⟨hop', hrd, hf3', hrs1, _, hsh⟩ := h.fields_eq
  rw [decodeWord_of_opOpImm hop, decodeWord_of_opOpImm (hop'.trans hop)]
  simp [decodeOpImm, hf3', hf3, hrd, hrs1, hsh, h30]

/-- ADD and SUB read bit 30 and nothing else above rs2 (R82). -/
theorem AgreeBelowFunct7.decodeWord_op_eq (h : AgreeBelowFunct7 w' w) (h30 : bit30Of w' = bit30Of w)
    (hop : opcodeOf w = opOp) : decodeWord w' = decodeWord w := by
  obtain ⟨hop', hrd, hf3, hrs1, hrs2, _⟩ := h.fields_eq
  rw [decodeWord_of_opOp hop, decodeWord_of_opOp (hop'.trans hop)]
  simp [decodeOp, hf3, hrd, hrs1, hrs2, h30]

/-- The R-type encoder, whatever funct7 it writes, gives back the bits below. -/
theorem agreeBelowFunct7_encodeR {op : BitVec 7} {f3 : BitVec 3} (hop : opcodeOf w = op) (hf3 : funct3Of w = f3)
    (f7 : BitVec 7) : AgreeBelowFunct7 w (encodeR f7 (rs2Of w) (rs1Of w) f3 (rdOf w) op) := by
  subst hop hf3
  intro k hk
  simp only [getLsbD_encodeR, rs2Of, rs1Of, funct3Of, rdOf, opcodeOf, BitVec.getLsbD_extractLsb']
  grind

/-- R82: a word either is the encoding of the instruction it decodes to, bit by bit, or is a shift by a constant,
an ADD or a SUB, whose words have ignored bits. -/
theorem encode_eq_or_ignoresBits {i : Instr} (h : decodeWord w = .ok i) :
    (Machine.significantBits i = 0xFFFFFFFF#32 ∧ encode i = w) ∨
    (opcodeOf w = opOpImm ∧ funct3Of w = 1#3 ∧ i = .slli (rdOf w) (rs1Of w) (shamtOf w)) ∨
    (opcodeOf w = opOpImm ∧ funct3Of w = 5#3 ∧
      ((bit30Of w = true ∧ i = .srai (rdOf w) (rs1Of w) (shamtOf w)) ∨
       (bit30Of w = false ∧ i = .srli (rdOf w) (rs1Of w) (shamtOf w)))) ∨
    (opcodeOf w = opOp ∧ funct3Of w = 0#3 ∧
      ((bit30Of w = true ∧ i = .sub (rdOf w) (rs1Of w) (rs2Of w)) ∨
       (bit30Of w = false ∧ i = .add (rdOf w) (rs1Of w) (rs2Of w)))) := by
  rcases decodeWord_cases h with ⟨hop, rfl⟩ | ⟨hop, rfl⟩ | ⟨hop, rfl⟩ | ⟨hop, hf3, rfl⟩ | ⟨hop, hbranch⟩ |
    ⟨hop, hload⟩ | ⟨hop, hstore⟩ | ⟨hop, hopImm⟩ | ⟨hop, hf3, hsub⟩
  · exact .inl ⟨rfl, encodeU_fields hop⟩
  · exact .inl ⟨rfl, encodeU_fields hop⟩
  · exact .inl ⟨rfl, encodeJ_fields hop⟩
  · exact .inl ⟨rfl, encodeI_fields hop hf3⟩
  · rcases hbranch with ⟨hf3, rfl⟩ | ⟨hf3, rfl⟩ | ⟨hf3, rfl⟩ | ⟨hf3, rfl⟩ | ⟨hf3, rfl⟩ | ⟨hf3, rfl⟩ <;>
      exact .inl ⟨rfl, encodeB_fields hop hf3⟩
  · rcases hload with ⟨hf3, rfl⟩ | ⟨hf3, rfl⟩ | ⟨hf3, rfl⟩ | ⟨hf3, rfl⟩ <;>
      exact .inl ⟨rfl, encodeI_fields hop hf3⟩
  · rcases hstore with ⟨hf3, rfl⟩ | ⟨hf3, rfl⟩ <;> exact .inl ⟨rfl, encodeS_fields hop hf3⟩
  · rcases hopImm with ⟨hf3, rfl⟩ | ⟨hf3, hi⟩ | ⟨hf3, rfl⟩ | ⟨hf3, h30, hi⟩ | ⟨hf3, h30, hi⟩ | ⟨hf3, rfl⟩ |
      ⟨hf3, rfl⟩
    · exact .inl ⟨rfl, encodeI_fields hop hf3⟩
    · exact .inr (.inl ⟨hop, hf3, hi⟩)
    · exact .inl ⟨rfl, encodeI_fields hop hf3⟩
    · exact .inr (.inr (.inl ⟨hop, hf3, .inl ⟨h30, hi⟩⟩))
    · exact .inr (.inr (.inl ⟨hop, hf3, .inr ⟨h30, hi⟩⟩))
    · exact .inl ⟨rfl, encodeI_fields hop hf3⟩
    · exact .inl ⟨rfl, encodeI_fields hop hf3⟩
  · exact .inr (.inr (.inr ⟨hop, hf3, hsub⟩))

/-- A word and the encoding of what it decodes to agree in every bit that is read (R82). -/
theorem encode_agrees_of_decodeWord {i : Instr} (h : decodeWord w = .ok i) :
    w &&& Machine.significantBits i = encode i &&& Machine.significantBits i := by
  have h30 : ∀ {f7 rs2 rs1 f3 rd op}, bit30Of w = f7.getLsbD 5 →
      bit30Of w = bit30Of (encodeR f7 rs2 rs1 f3 rd op) := fun h => h.trans (bit30Of_encodeR ..).symm
  rcases encode_eq_or_ignoresBits h with ⟨_, he⟩ | ⟨hop, hf3, rfl⟩ | ⟨hop, hf3, ⟨hb, rfl⟩ | ⟨hb, rfl⟩⟩ |
    ⟨hop, hf3, ⟨hb, rfl⟩ | ⟨hb, rfl⟩⟩
  · rw [he]
  · exact and_mask25_eq_iff.2 (agreeBelowFunct7_encodeR hop hf3 _)
  · exact and_mask25_30_eq_iff.2 ⟨agreeBelowFunct7_encodeR hop hf3 _, h30 hb⟩
  · exact and_mask25_30_eq_iff.2 ⟨agreeBelowFunct7_encodeR hop hf3 _, h30 hb⟩
  · exact and_mask25_30_eq_iff.2 ⟨agreeBelowFunct7_encodeR hop hf3 _, h30 hb⟩
  · exact and_mask25_30_eq_iff.2 ⟨agreeBelowFunct7_encodeR hop hf3 _, h30 hb⟩

/-- Words that agree in every bit that is read decode alike (R82). -/
theorem decodeWord_eq_of_agree {i : Instr} (h : decodeWord w = .ok i)
    (hagree : w' &&& Machine.significantBits i = w &&& Machine.significantBits i) :
    decodeWord w' = decodeWord w := by
  rcases encode_eq_or_ignoresBits h with ⟨hall, _⟩ | ⟨hop, hf3, rfl⟩ | ⟨hop, hf3, hshift⟩ | ⟨hop, _, hsum⟩
  · rw [hall] at hagree
    have hw : w' = w := by
      rw [← BitVec.and_allOnes (x := w'), ← BitVec.and_allOnes (x := w)]
      exact hagree
    rw [hw]
  · exact (and_mask25_eq_iff.1 hagree).decodeWord_slli_eq hop hf3
  · have hm : Machine.significantBits i = 0x41FFFFFF#32 := by
      rcases hshift with ⟨_, rfl⟩ | ⟨_, rfl⟩ <;> rfl
    obtain ⟨hlow, h30⟩ := and_mask25_30_eq_iff.1 (hm ▸ hagree)
    exact hlow.decodeWord_shiftRight_eq h30 hop hf3
  · have hm : Machine.significantBits i = 0x41FFFFFF#32 := by
      rcases hsum with ⟨_, rfl⟩ | ⟨_, rfl⟩ <;> rfl
    obtain ⟨hlow, h30⟩ := and_mask25_30_eq_iff.1 (hm ▸ hagree)
    exact hlow.decodeWord_op_eq h30 hop

end

/-- Settles O3: the word of an instruction without ignored bits is its encoding; those of the shifts by a constant,
of ADD and of SUB are read below funct7 and, but for SLLI, in bit 30. -/
theorem encodeOfDecodeOnSignificantBits : Obligations.EncodeOfDecodeOnSignificantBits :=
  ⟨fun _ _ => encode_agrees_of_decodeWord, fun _ _ _ h hagree => (decodeWord_eq_of_agree h hagree).trans h⟩

end Sys2Proof

/-! ## The immediates of a word -/

namespace Sys2Proof

open Machine

section
variable (w : Word)

/-! ### Bits -/

theorem getLsbD_immI_immIOf {k : Nat} (hk : k < 32) :
    (immI (immIOf w)).getLsbD k = w.getLsbD (if k < 12 then 20 + k else 31) := by
  simp only [immI, immIOf, BitVec.getLsbD_signExtend, BitVec.msb_eq_getLsbD_last, BitVec.getLsbD_extractLsb']
  grind

theorem getLsbD_immS_immSOf {k : Nat} (hk : k < 32) :
    (immS (immSOf w)).getLsbD k = w.getLsbD (if k < 5 then 7 + k else if k < 12 then 20 + k else 31) := by
  simp only [immS, BitVec.getLsbD_signExtend, BitVec.msb_eq_getLsbD_last, getLsbD_immSOf]
  grind

theorem getLsbD_immB_immBOf {k : Nat} (hk : k < 32) : (immB (immBOf w)).getLsbD k =
    if k < 1 then false else if k < 5 then w.getLsbD (7 + k) else if k < 11 then w.getLsbD (20 + k)
    else if k < 12 then w.getLsbD 7 else w.getLsbD 31 := by
  simp only [immB, BitVec.getLsbD_signExtend, BitVec.msb_eq_getLsbD_last, getLsbD_immBOf]
  grind

theorem getLsbD_immJ_immJOf {k : Nat} (hk : k < 32) : (immJ (immJOf w)).getLsbD k =
    if k < 1 then false else if k < 11 then w.getLsbD (20 + k) else if k < 12 then w.getLsbD 20
    else if k < 20 then w.getLsbD k else w.getLsbD 31 := by
  simp only [immJ, BitVec.getLsbD_signExtend, BitVec.msb_eq_getLsbD_last, getLsbD_immJOf]
  grind

/-- R76: bits 31:12 stay in place. -/
theorem immU_immUOf : immU (immUOf w) = w &&& 0xFFFFF000#32 := by
  have hmask : ∀ k, k < 32 → (0xFFFFF000#32).getLsbD k = decide (12 ≤ k) := by decide
  refine BitVec.eq_of_getLsbD_eq fun k hk => ?_
  rw [BitVec.getLsbD_and, hmask k hk]
  unfold immU
  change BitVec.getLsbD (w := 20 + 12) (immUOf w ++ 0#12) k = _
  simp only [BitVec.getLsbD_append, immUOf, BitVec.getLsbD_extractLsb', BitVec.getLsbD_zero]
  grind

/-! ### Signed values -/

/-- R73: the I-type field is the top 12 bits of the word. -/
theorem toNat_immIOf : (immIOf w).toNat = w.toNat / 2 ^ 20 := by
  have hlt : w.toNat / 2 ^ 20 < 2 ^ 12 := by omega
  rw [immIOf, BitVec.extractLsb'_toNat, Nat.shiftRight_eq_div_pow, Nat.mod_eq_of_lt hlt]

theorem toInt_immI_immIOf : (immI (immIOf w)).toInt =
    if w.getLsbD 31 then ((w.toNat / 2 ^ 20 : Nat) : Int) - 4096 else ((w.toNat / 2 ^ 20 : Nat) : Int) := by
  have hmsb : (immIOf w).msb = w.getLsbD 31 := by
    rw [BitVec.msb_eq_getLsbD_last, immIOf, BitVec.getLsbD_extractLsb']
    rfl
  rw [immI, toInt_signExtend32 _ (by decide), BitVec.toInt_eq_msb_cond, hmsb, toNat_immIOf]
  rfl

end

/-- The range of a sign-extended 12-bit field (R73, R74). -/
theorem toInt_signExtend_range12 (f : BitVec 12) :
    -2048 ≤ (f.signExtend 32).toInt ∧ (f.signExtend 32).toInt ≤ 2047 := by
  rw [toInt_signExtend32 f (by decide)]
  have hlo := f.le_toInt
  have hhi := f.toInt_lt
  omega

/-- A word whose bit 0 is 0 is even as a signed number. -/
theorem toInt_mod_two {v : Word} (h : v.getLsbD 0 = false) : v.toInt % 2 = 0 := by
  simp only [BitVec.getLsbD, Nat.testBit_zero, decide_eq_false_iff_not] at h
  rw [BitVec.toInt_eq_toNat_cond]
  split <;> omega

/-- A B-type offset is even and lies in -4096 to 4094 (R75). -/
theorem toInt_immB_range {off : BitVec 13} (h : off.getLsbD 0 = false) :
    -4096 ≤ (immB off).toInt ∧ (immB off).toInt ≤ 4094 ∧ (immB off).toInt % 2 = 0 := by
  have heven : (immB off).toInt % 2 = 0 := toInt_mod_two (even_signExtend (by decide) h)
  have hint : (immB off).toInt = off.toInt := toInt_signExtend32 off (by decide)
  have hlo := off.le_toInt
  have hhi := off.toInt_lt
  omega

/-- A J-type offset is even and lies in -1048576 to 1048574 (R77). -/
theorem toInt_immJ_range {off : BitVec 21} (h : off.getLsbD 0 = false) :
    -1048576 ≤ (immJ off).toInt ∧ (immJ off).toInt ≤ 1048574 ∧ (immJ off).toInt % 2 = 0 := by
  have heven : (immJ off).toInt % 2 = 0 := toInt_mod_two (even_signExtend (by decide) h)
  have hint : (immJ off).toInt = off.toInt := toInt_signExtend32 off (by decide)
  have hlo := off.le_toInt
  have hhi := off.toInt_lt
  omega

/-! ### Which immediate the instruction of a word computes with -/

section
variable {w : Word} {i : Instr}

/-- R73: OP-IMM but for the shifts, LOAD and JALR use the I-type immediate. -/
theorem immValue_of_iType (h : decodeWord w = .ok i)
    (hop : (opcodeOf w = opOpImm ∧ funct3Of w ≠ 1#3 ∧ funct3Of w ≠ 5#3) ∨ opcodeOf w = opLoad ∨
      opcodeOf w = opJalr) : immValue i = some (immI (immIOf w)) := by
  rcases hop with ⟨hop, h1, h5⟩ | hop | hop
  · rw [decodeWord_of_opOpImm hop] at h
    rcases decodeOpImm_cases h with ⟨_, rfl⟩ | ⟨hf3, _⟩ | ⟨_, rfl⟩ | ⟨hf3, _⟩ | ⟨hf3, _⟩ | ⟨_, rfl⟩ | ⟨_, rfl⟩
    · rfl
    · exact absurd hf3 h1
    · rfl
    · exact absurd hf3 h5
    · exact absurd hf3 h5
    · rfl
    · rfl
  · rw [decodeWord_of_opLoad hop] at h
    rcases decodeLoad_cases h with ⟨_, rfl⟩ | ⟨_, rfl⟩ | ⟨_, rfl⟩ | ⟨_, rfl⟩ <;> rfl
  · rw [decodeWord_of_opJalr hop] at h
    split at h <;> cases h
    rfl

/-- R74: STORE uses the S-type immediate. -/
theorem immValue_of_opStore (h : decodeWord w = .ok i) (hop : opcodeOf w = opStore) :
    immValue i = some (immS (immSOf w)) := by
  rw [decodeWord_of_opStore hop] at h
  rcases decodeStore_cases h with ⟨_, rfl⟩ | ⟨_, rfl⟩ <;> rfl

/-- R75: BRANCH uses the B-type offset. -/
theorem immValue_of_opBranch (h : decodeWord w = .ok i) (hop : opcodeOf w = opBranch) :
    immValue i = some (immB (immBOf w)) := by
  rw [decodeWord_of_opBranch hop] at h
  rcases decodeBranch_cases h with ⟨_, rfl⟩ | ⟨_, rfl⟩ | ⟨_, rfl⟩ | ⟨_, rfl⟩ | ⟨_, rfl⟩ | ⟨_, rfl⟩ <;> rfl

/-- R76: LUI and AUIPC use the U-type immediate. -/
theorem immValue_of_uType (h : decodeWord w = .ok i) (hop : opcodeOf w = opLui ∨ opcodeOf w = opAuipc) :
    immValue i = some (immU (immUOf w)) := by
  rcases hop with hop | hop
  · rw [decodeWord_of_opLui hop] at h
    cases h
    rfl
  · rw [decodeWord_of_opAuipc hop] at h
    cases h
    rfl

/-- R77: JAL uses the J-type offset. -/
theorem immValue_of_opJal (h : decodeWord w = .ok i) (hop : opcodeOf w = opJal) :
    immValue i = some (immJ (immJOf w)) := by
  rw [decodeWord_of_opJal hop] at h
  cases h
  rfl

/-- R78: what an OP-IMM word with the funct3 of a shift decodes to. -/
theorem shift_of_decodeWord (h : decodeWord w = .ok i) (hop : opcodeOf w = opOpImm)
    (hf3 : funct3Of w = 1#3 ∨ funct3Of w = 5#3) :
    i = if funct3Of w = 1#3 then .slli (rdOf w) (rs1Of w) (shamtOf w)
        else if bit30Of w then .srai (rdOf w) (rs1Of w) (shamtOf w)
        else .srli (rdOf w) (rs1Of w) (shamtOf w) := by
  rw [decodeWord_of_opOpImm hop] at h
  rcases hf3 with hf3 | hf3
  · simp only [decodeOpImm, hf3] at h
    cases h
    rw [if_pos hf3]
  · simp only [decodeOpImm, hf3] at h
    rw [hf3, if_neg (by decide)]
    cases hb : bit30Of w <;> rw [hb] at h <;> cases h <;> rfl

end

/-! ### The statements of R73 to R78 -/

/-- Settles O4: the bits, the value and the range of the sign-extended field inst[31:20]. -/
theorem immediateOfITypeWord : Obligations.ImmediateOfITypeWord := by
  intro w i h hop
  exact ⟨_, immValue_of_iType h hop, fun _ => getLsbD_immI_immIOf w, toInt_immI_immIOf w,
    toInt_signExtend_range12 (immIOf w)⟩

/-- Settles O5: the bits and the range of the sign-extended S-type field. -/
theorem immediateOfSTypeWord : Obligations.ImmediateOfSTypeWord := by
  intro w i h hop
  exact ⟨_, immValue_of_opStore h hop, fun _ => getLsbD_immS_immSOf w, toInt_signExtend_range12 (immSOf w)⟩

/-- Settles O6: each run of bits of the sign-extended offset is one field of the word. -/
theorem offsetOfBTypeWord : Obligations.OffsetOfBTypeWord := by
  intro w i h hop
  have hbit := fun k (hk : k < 32) => getLsbD_immB_immBOf w hk
  refine ⟨_, immValue_of_opBranch h hop, hbit 0 (by decide), fun k h1 h4 => ?_, fun k h5 h10 => ?_,
    hbit 11 (by decide), fun k h12 h32 => ?_, toInt_immB_range (even_of_evenOffset (evenOffset_immBOf w))⟩
  · rw [hbit k (by omega), if_neg (by omega), if_pos (by omega)]
  · rw [hbit k (by omega), if_neg (by omega), if_neg (by omega), if_pos (by omega)]
  · rw [hbit k h32, if_neg (by omega), if_neg (by omega), if_neg (by omega), if_neg (by omega)]

/-- Settles O7: the 20-bit field over 12 zero bits is the word with those bits cleared. -/
theorem immediateOfUTypeWord : Obligations.ImmediateOfUTypeWord := by
  intro w i h hop
  rw [immValue_of_uType h hop, immU_immUOf]

/-- Settles O8: each run of bits of the sign-extended offset is one field of the word. -/
theorem offsetOfJTypeWord : Obligations.OffsetOfJTypeWord := by
  intro w i h hop
  have hbit := fun k (hk : k < 32) => getLsbD_immJ_immJOf w hk
  refine ⟨_, immValue_of_opJal h hop, hbit 0 (by decide), fun k h1 h10 => ?_, hbit 11 (by decide),
    fun k h12 h19 => ?_, fun k h20 h32 => ?_, toInt_immJ_range (even_of_evenOffset (evenOffset_immJOf w))⟩
  · rw [hbit k (by omega), if_neg (by omega), if_pos (by omega)]
  · rw [hbit k (by omega), if_neg (by omega), if_neg (by omega), if_neg (by omega), if_pos (by omega)]
  · rw [hbit k h32, if_neg (by omega), if_neg (by omega), if_neg (by omega), if_neg (by omega)]

/-- Settles O9: funct3 001 selects SLLI, funct3 101 one of the right shifts by bit 30; each reads inst[24:20]. -/
theorem shiftAmountOfWord : Obligations.ShiftAmountOfWord := by
  intro w i h hop hf3
  have hsh : (shamtOf w).toNat = w.toNat / 2 ^ 20 % 32 := by
    rw [shamtOf, BitVec.extractLsb'_toNat, Nat.shiftRight_eq_div_pow]
  have hle : (shamtOf w).toNat ≤ 31 := Nat.le_of_lt_succ (shamtOf w).isLt
  have hi := shift_of_decodeWord h hop hf3
  refine ⟨rdOf w, rs1Of w, shamtOf w, ?_, hsh, hle, hi⟩
  rw [hi]
  split
  · rfl
  · split <;> rfl

/-! ### Unknown words -/

section
variable (w : Word)

theorem funct3_cases (f : BitVec 3) :
    f = 0#3 ∨ f = 1#3 ∨ f = 2#3 ∨ f = 3#3 ∨ f = 4#3 ∨ f = 5#3 ∨ f = 6#3 ∨ f = 7#3 := by
  revert f
  decide

theorem decodeWord_jalr_unknown_iff (hop : opcodeOf w = opJalr) :
    (∃ why, decodeWord w = .unknown why) ↔ funct3Of w ≠ 0#3 := by
  rw [decodeWord_of_opJalr hop]
  split <;> simp [*]

theorem decodeBranch_unknown_iff :
    (∃ why, decodeBranch w = .unknown why) ↔ funct3Of w ∈ [2#3, 3#3] := by
  rcases funct3_cases (funct3Of w) with h | h | h | h | h | h | h | h <;> simp [decodeBranch, h]

theorem decodeLoad_unknown_iff :
    (∃ why, decodeLoad w = .unknown why) ↔ funct3Of w ∈ [1#3, 3#3, 6#3, 7#3] := by
  rcases funct3_cases (funct3Of w) with h | h | h | h | h | h | h | h <;> simp [decodeLoad, h]

theorem decodeStore_unknown_iff :
    (∃ why, decodeStore w = .unknown why) ↔ funct3Of w ∈ [1#3, 3#3, 4#3, 5#3, 6#3, 7#3] := by
  rcases funct3_cases (funct3Of w) with h | h | h | h | h | h | h | h <;> simp [decodeStore, h]

theorem decodeOpImm_unknown_iff :
    (∃ why, decodeOpImm w = .unknown why) ↔ funct3Of w ∈ [2#3, 3#3] := by
  rcases funct3_cases (funct3Of w) with h | h | h | h | h | h | h | h <;> simp [decodeOpImm, h]
  cases bit30Of w <;> simp

theorem decodeOp_unknown_iff : (∃ why, decodeOp w = .unknown why) ↔ funct3Of w ≠ 0#3 := by
  by_cases h : funct3Of w = 0#3
  · cases hb : bit30Of w <;> simp [decodeOp, h, hb]
  · simp [decodeOp, h]

/-- R80: a word whose opcode is none of the nine is unknown. -/
theorem decodeWord_of_unlisted
    (h : opcodeOf w ∉ [opOpImm, opStore, opLui, opLoad, opJalr, opBranch, opAuipc, opJal, opOp]) :
    decodeWord w = .unknown .unlistedOpcode := by
  simp only [List.mem_cons, List.not_mem_nil, or_false, not_or] at h
  obtain ⟨hopImm, hstore, hlui, hload, hjalr, hbranch, hauipc, hjal, hop⟩ := h
  rw [decodeWord, if_neg hlui, if_neg hauipc, if_neg hjal, if_neg hjalr, if_neg hbranch, if_neg hload,
    if_neg hstore, if_neg hopImm, if_neg hop]

end

/-- Settles O10: each opcode leaves out the funct3 values of its clause, and the opcodes of no clause leave out
none. -/
theorem unknownWordsAreExactly : Obligations.UnknownWordsAreExactly := by
  intro w
  have hlist : isUnknownWord w ↔
      opcodeOf w ∉ [0x13#7, 0x23#7, 0x37#7, 0x03#7, 0x67#7, 0x63#7, 0x17#7, 0x6F#7, 0x33#7] ∨
      (opcodeOf w = 0x03#7 ∧ funct3Of w ∈ [1#3, 3#3, 6#3, 7#3]) ∨
      (opcodeOf w = 0x23#7 ∧ funct3Of w ∈ [1#3, 3#3, 4#3, 5#3, 6#3, 7#3]) ∨
      (opcodeOf w = 0x63#7 ∧ funct3Of w ∈ [2#3, 3#3]) ∨
      (opcodeOf w = 0x13#7 ∧ funct3Of w ∈ [2#3, 3#3]) ∨
      (opcodeOf w = 0x33#7 ∧ funct3Of w ≠ 0#3) ∨
      (opcodeOf w = 0x67#7 ∧ funct3Of w ≠ 0#3) := Iff.rfl
  rw [hlist]
  by_cases hlisted : opcodeOf w ∈ [0x13#7, 0x23#7, 0x37#7, 0x03#7, 0x67#7, 0x63#7, 0x17#7, 0x6F#7, 0x33#7]
  · simp only [hlisted, not_true_eq_false, false_or]
    simp only [List.mem_cons, List.not_mem_nil, or_false] at hlisted
    rcases hlisted with hop | hop | hop | hop | hop | hop | hop | hop | hop
    · simp [hop, decodeWord_of_opOpImm hop, decodeOpImm_unknown_iff]
    · simp [hop, decodeWord_of_opStore hop, decodeStore_unknown_iff]
    · simp [hop, decodeWord_of_opLui hop]
    · simp [hop, decodeWord_of_opLoad hop, decodeLoad_unknown_iff]
    · simp [hop, decodeWord_jalr_unknown_iff w hop]
    · simp [hop, decodeWord_of_opBranch hop, decodeBranch_unknown_iff]
    · simp [hop, decodeWord_of_opAuipc hop]
    · simp [hop, decodeWord_of_opJal hop]
    · simp [hop, decodeWord_of_opOp hop, decodeOp_unknown_iff]
  · exact ⟨fun _ => .inl hlisted, fun _ => ⟨_, decodeWord_of_unlisted w hlisted⟩⟩

end Sys2Proof

/-! ## The cycle by what it fetches -/

namespace Sys2Proof.Machine

section
variable {s : State} {w : Word} {i : Instr} {why : Reject} {a : Word}

/-- An absent byte at the pc ends the run at the fetch (R90 step 3, R202). -/
theorem step_of_fetch_absent (h : s.fetches) (hf : s.fetch = .absent a) :
    step s = .next (s.raise (.segmentationFault s.pc none a)) := by
  rw [step_of_running h.1, runningCycle, h.2, if_neg Bool.false_ne_true]
  simp only [hf]

/-- R90 steps 1 to 3: with no fault pending and the word fetched, the step is what follows the fetch. -/
theorem step_of_fetchesWord (h : s.fetchesWord w) : step s = runWord w s := by
  obtain ⟨⟨hrun, hflag⟩, hf⟩ := h
  rw [step_of_running hrun, runningCycle, hflag, if_neg Bool.false_ne_true]
  simp only [hf]

/-- A fetched word that is unknown ends the run (R84, R205). -/
theorem step_of_unknown (h : s.fetchesWord w) (hd : decodeWord w = .unknown why) :
    step s = .next (s.raise (.unknownInstruction s.pc w (opcodeOf w))) := by
  rw [step_of_fetchesWord h]
  simp only [runWord, hd]

/-- A fetched word that decodes runs its instruction (R90 step 5). -/
theorem step_of_decodes (h : s.fetchesWord w) (hd : decodeWord w = .ok i) : step s = exec i s := by
  rw [step_of_fetchesWord h]
  simp only [runWord, hd]

/-! ### The trace record of a cycle -/

theorem traceRecord_of_not_fetches (h : ¬ s.fetches) : traceRecord s = none := if_neg h

theorem traceRecord_of_fetch_absent (hf : s.fetch = .absent a) : traceRecord s = none := by
  simp only [traceRecord, hf, ite_self]

theorem traceRecord_of_unknown (hf : s.fetch = .ok w) (hd : decodeWord w = .unknown why) :
    traceRecord s = none := by
  simp only [traceRecord, hf, hd, ite_self]

/-- The cycle of an instruction that leaves the machine running emits its record (R218, D16). -/
theorem traceRecord_of_completes {t : State} (h : s.fetchesWord w) (hd : decodeWord w = .ok i)
    (he : exec i s = .next t) (hrun : t.run = .running) :
    traceRecord s = some ⟨s.pc, w, mnemonicOf i, i, regDeltas s t⟩ := by
  obtain ⟨hfetches, hf⟩ := h
  refine (if_pos hfetches).trans ?_
  simp only [hf, hd, completedRecord, he, hrun, if_true]

end

/-! ### The statements of R90 -/

/-- Settles O12: no fault is pending, the word is fetched and it is known. -/
theorem stepRunsDecodedInstruction : Obligations.StepRunsDecodedInstruction :=
  fun _ _ _ => step_of_decodes

/-- Settles O13: the step and the trace record at each place where a cycle can end. -/
theorem cycleOrder : Obligations.CycleOrder := by
  intro s
  refine ⟨fun hended => ?_, fun hrun hflag => ?_, fun a hf ha => ?_, fun w why hf hw hd => ?_,
    fun w i hf hw hd => ?_⟩
  · exact ⟨fun t h => hended (step_cases h).1, traceRecord_of_not_fetches fun h => hended h.1⟩
  · exact ⟨step_of_pendingFault hrun hflag, traceRecord_of_not_fetches fun h => by simp [h.2] at hflag⟩
  · exact ⟨step_of_fetch_absent hf ha, traceRecord_of_fetch_absent ha⟩
  · exact ⟨step_of_unknown ⟨hf, hw⟩ hd, traceRecord_of_unknown hw hd⟩
  · exact ⟨step_of_decodes ⟨hf, hw⟩ hd, fun t he hrun => ⟨_, traceRecord_of_completes ⟨hf, hw⟩ hd he hrun⟩⟩

/-! ## The default advance -/

/-- An instruction that leaves the machine running and does not set the pc advances it by 4 (R96). -/
theorem exec_pc_of_not_setsPc {i : Instr} {s t : State} (h : exec i s = .next t) (hrun : t.run = .running)
    (hset : ¬ setsPc i s) : t.pc = s.pc + 4#32 := by
  cases exec_outcome h with
  | wrote rd v pc' _ _ hpc _ ht => rw [ht, State.jump_pc, hpc hset]
  | branched pc' _ _ hpc _ ht => rw [ht, State.jump_pc, hpc hset]
  | segfaulted a _ _ _ ht => simp [ht] at hrun
  | halted rs1 _ _ ht => simp [ht] at hrun
  | stored u _ _ _ hf ht => rw [ht, State.advance_pc, hf.pc]
  | full u a c _ _ _ _ _ _ _ ht => simp [ht] at hrun

/-- Settles O51: the pc of each way to complete. -/
theorem defaultAdvance : Obligations.DefaultAdvance := by
  intro i s t _ h hrun hset
  rw [exec_pc_of_not_setsPc h hrun hset, BitVec.toNat_add]
  rfl

/-! ## A word placed at the pc -/

@[simp] theorem tableWord_toNat (w : Word) : tableWord 32 w.toNat = w := by
  rw [tableWord, Nat.mod_eq_of_lt w.isLt, BitVec.ofNat_toNat, BitVec.setWidth_eq]

/-- The next cycle fetches the word that is placed at the pc (R70, log entry 2). -/
theorem State.withFetchWord_fetchesWord (s : State) (w : Word) :
    (s.withFetchWord 32 w.toNat).fetchesWord w := by
  refine ⟨⟨rfl, rfl⟩, ?_⟩
  rw [State.withFetchWord, tableWord_toNat]
  have hpc : (s.placeAtPc w).pc = s.pc := State.placeBytes_pc s s.pc (bytesOf w)
  rw [State.fetch, hpc]
  exact State.read32_of_bytesOf fun k hk => State.byteAt_placeBytes_word s s.pc w k hk

/-- Settles O57: the placed word is the one fetched, and it decodes. -/
theorem placedWordRunsNext : Obligations.PlacedWordRunsNext :=
  fun s w _ => step_of_decodes (s.withFetchWord_fetchesWord w)

end Sys2Proof.Machine

/-! ## What an expansion leaves of the registers and of the rest -/

namespace Sys2Proof.Machine

section
variable {s t u : State} {rd : RegIx} {v v' : Word}

theorem State.sameRest.trans (h : s.sameRest t) (h' : t.sameRest u) : s.sameRest u := by
  obtain ⟨hmem, hfill, hbound, hflag, hrun, hcap⟩ := h
  obtain ⟨hmem', hfill', hbound', hflag', hrun', hcap'⟩ := h'
  exact ⟨hmem'.trans hmem, hfill'.trans hfill, hbound'.trans hbound, hflag'.trans hflag, hrun'.trans hrun,
    hcap'.trans hcap⟩

/-- Of two writes to one register the second counts. -/
theorem State.wroteReg.trans (h : s.wroteReg t rd v) (h' : t.wroteReg u rd v') : s.wroteReg u rd v' := by
  intro r
  rw [h' r]
  split
  · rfl
  · split
    · rfl
    · next h0 hne => rw [h r, if_neg h0, if_neg hne]

/-- A write to x0 is discarded, so its value does not matter (R21). -/
theorem State.wroteReg.of_value_eq (h : s.wroteReg t rd v) (hv : rd ≠ 0#5 → v = v') : s.wroteReg t rd v' := by
  intro r
  rw [h r]
  split
  · rfl
  · split
    · next h0 he => exact hv (he ▸ h0)
    · rfl

theorem State.wroteReg.readReg_self (h : s.wroteReg t rd v) (hrd : rd ≠ 0#5) : t.readReg rd = v := by
  rw [h rd, if_neg hrd, if_pos rfl]

/-- A write to x0 is discarded (R21). -/
@[simp] theorem State.writeReg_zero (s : State) (v : Word) : s.writeReg 0#5 v = s := rfl

theorem State.wroteReg_linkJump (s : State) (rd : RegIx) (v pc' : Word) :
    s.wroteReg ((s.writeReg rd v).jump pc') rd v := by
  intro r
  rw [State.jump_readReg, State.readReg_writeReg]

theorem State.sameRest_linkJump (s : State) (rd : RegIx) (v pc' : Word) :
    s.sameRest ((s.writeReg rd v).jump pc') := by
  simp [State.sameRest]

theorem add_four_add_four (a : Word) : a + 4#32 + 4#32 = a + 8#32 := by
  rw [BitVec.add_assoc]
  rfl

end

/-! ## Pseudo-instructions that leave a value -/

section
variable {s : State} {rd : RegIx}

/-- An expansion of one instruction that ends as a register result. -/
theorem execAll_finishReg {i : Instr} {v v' : Word} (h : exec i s = finishReg rd v s) (hv : v = v') :
    ∃ t, execAll [i] s = .next t ∧ s.wroteReg t rd v' ∧ t.pc = s.pc + 4#32 ∧ s.sameRest t := by
  rw [execAll_one, h, hv]
  exact ⟨_, finishReg_spec rd v' s⟩

/-- An instruction that leaves `base` in rd, then `addi rd, rd, lo`, leave the sum (R88). -/
theorem execAll_finishReg_addi {i : Instr} {base v : Word} {lo : BitVec 12}
    (h : exec i s = finishReg rd base s) (hv : base + immI lo = v) :
    ∃ t, execAll [i, .addi rd rd lo] s = .next t ∧ s.wroteReg t rd v ∧ t.pc = s.pc + 8#32 ∧ s.sameRest t := by
  obtain ⟨hnext, hwrote, hpc, hrest⟩ := finishReg_spec rd base s
  rw [execAll_cons_next (h.trans hnext)]
  obtain ⟨u, hu, hwrote', hpc', hrest'⟩ := execAll_finishReg (i := .addi rd rd lo) rfl rfl
  refine ⟨u, hu, (hwrote.trans hwrote').of_value_eq fun hrd => ?_, ?_, hrest.trans hrest'⟩
  · rw [hwrote.readReg_self hrd, hv]
  · rw [hpc', hpc, add_four_add_four]

/-- R88: each expansion of `li` leaves the constant; the pc tells how many words it has. -/
theorem runPseudo_li (s : State) (rd : RegIx) (v : Word) :
    ∃ t, s.runPseudo (.li rd v) = .next t ∧ s.wroteReg t rd v ∧ s.sameRest t ∧
      t.pc = s.pc + (if (-2048 ≤ v.toInt ∧ v.toInt ≤ 2047) ∨ v.toNat % 4096 = 0 then 4#32 else 8#32) := by
  change ∃ t, execAll (expandLi rd v) s = .next t ∧ _
  have hsum := hi20_add_lo12 v
  unfold expandLi
  by_cases hrange : -2048 ≤ v.toInt ∧ v.toInt ≤ 2047
  · rw [if_pos hrange, if_pos (.inl hrange)]
    obtain ⟨t, ht, hwrote, hpc, hrest⟩ := execAll_finishReg (s := s) (i := .addi rd 0#5 (v.extractLsb' 0 12)) rfl
      (show 0#32 + immI (v.extractLsb' 0 12) = v by rw [immI_low12 hrange, BitVec.zero_add])
    exact ⟨t, ht, hwrote, hrest, hpc⟩
  · rw [if_neg hrange]
    by_cases hlow : lo12 v = 0#12
    · rw [if_pos hlow, if_pos (.inr ((lo12_eq_zero v).1 hlow))]
      obtain ⟨t, ht, hwrote, hpc, hrest⟩ := execAll_finishReg (s := s) (i := .lui rd (hi20 v)) rfl
        (show immU (hi20 v) = v by simpa [hlow, immI] using hsum)
      exact ⟨t, ht, hwrote, hrest, hpc⟩
    · rw [if_neg hlow, if_neg (not_or.2 ⟨hrange, fun h => hlow ((lo12_eq_zero v).2 h)⟩)]
      obtain ⟨t, ht, hwrote, hpc, hrest⟩ := execAll_finishReg_addi (s := s) (i := .lui rd (hi20 v)) rfl hsum
      exact ⟨t, ht, hwrote, hrest, hpc⟩

/-- Settles O58: one register result each, and two for `la` and the long `li`, whose halves add up. -/
theorem valuePseudoInstructions : Obligations.ValuePseudoInstructions := by
  intro s rd rs v
  refine ⟨rfl, execAll_finishReg rfl ?_, execAll_finishReg rfl ?_, execAll_finishReg rfl ?_,
    runPseudo_li s rd v, execAll_finishReg_addi rfl ?_⟩
  · exact BitVec.add_zero _
  · exact BitVec.xor_allOnes
  · exact BitVec.zero_sub _
  · rw [BitVec.add_assoc, hi20_add_lo12, BitVec.add_comm, BitVec.sub_add_cancel]

end

/-! ## Pseudo-instructions that jump -/

section
variable {s : State} {rd rs1 : RegIx} {imm : BitVec 12}

/-- The exit sentinel is `jalr x0, 0(rs1)` with x[rs1] = 0 (R141). -/
theorem State.isSentinel_iff :
    s.isSentinel rd rs1 imm = true ↔ rd = 0#5 ∧ imm = 0#12 ∧ s.readReg rs1 = 0#32 := by
  simp only [State.isSentinel, Bool.and_eq_true, beq_iff_eq]
  constructor
  · rintro ⟨⟨⟨hrd, himm⟩, hreg⟩, _⟩
    exact ⟨hrd, immI_eq_zero himm, hreg⟩
  · rintro ⟨hrd, himm, hreg⟩
    have himm32 : immI imm = 0#32 := by rw [himm]; rfl
    refine ⟨⟨⟨hrd, himm32⟩, hreg⟩, ?_⟩
    rw [State.jalrTarget, hreg, himm32]
    rfl

/-- R141. -/
theorem exec_jalr_sentinel (hrd : rd = 0#5) (himm : imm = 0#12) (hreg : s.readReg rs1 = 0#32) :
    exec (.jalr rd rs1 imm) s = .next (s.halt (s.readReg 10#5)) :=
  if_pos (State.isSentinel_iff.2 ⟨hrd, himm, hreg⟩)

/-- R140. -/
theorem exec_jalr_jumps (h : ¬ (rd = 0#5 ∧ imm = 0#12 ∧ s.readReg rs1 = 0#32)) :
    exec (.jalr rd rs1 imm) s = .next ((s.writeReg rd s.nextPc).jump (s.jalrTarget rs1 imm)) :=
  if_neg fun hsent => h (State.isSentinel_iff.1 hsent)

/-- The target of JALR is the sum with bit 0 cleared (R140). -/
theorem State.toNat_jalrTarget {x : Word} (h : s.readReg rs1 + immI imm = x) :
    (s.jalrTarget rs1 imm).toNat = x.toNat - x.toNat % 2 := by
  rw [State.jalrTarget, h, toNat_and_not_one]

theorem add_immI_zero (x : Word) : x + immI 0#12 = x := BitVec.add_zero x

/-- The two halves of an offset, added to the pc one after the other. -/
theorem pc_add_hi20_add_lo12 (pc d : Word) : pc + immU (hi20 d) + immI (lo12 d) = pc + d := by
  rw [BitVec.add_assoc, hi20_add_lo12]

/-- R88: `j` and `jal` are JAL, whose target counts from its own address (R170). -/
theorem runPseudo_jal (s : State) (rd : RegIx) (off : BitVec 21) :
    ∃ t, execAll [.jal rd off] s = .next t ∧ t.regs = (s.writeReg rd (s.pc + 4#32)).regs ∧
      s.wroteReg t rd (s.pc + 4#32) ∧ s.isRelativePc off.toInt t.pc ∧ s.sameRest t :=
  ⟨_, execAll_one _ s, rfl, State.wroteReg_linkJump s rd _ _, s.isRelativePc_add off (by decide),
    State.sameRest_linkJump s rd _ _⟩

/-- R88: a JALR without offset that is not the sentinel jumps to its register with bit 0 cleared. -/
theorem execAll_jalr_zero (h : ¬ (rd = 0#5 ∧ s.readReg rs1 = 0#32)) :
    ∃ t, execAll [.jalr rd rs1 0#12] s = .next t ∧ t.regs = (s.writeReg rd (s.pc + 4#32)).regs ∧
      s.wroteReg t rd (s.pc + 4#32) ∧
      t.pc.toNat = (s.readReg rs1).toNat - (s.readReg rs1).toNat % 2 ∧ s.sameRest t := by
  rw [execAll_one, exec_jalr_jumps fun hsent => h ⟨hsent.1, hsent.2.2⟩]
  exact ⟨_, rfl, rfl, State.wroteReg_linkJump s rd _ _, State.toNat_jalrTarget (add_immI_zero _),
    State.sameRest_linkJump s rd _ _⟩

/-- R88: `call` links past its two words and jumps to the pc plus the offset. -/
theorem runPseudo_call (s : State) (d : Word) :
    ∃ t, s.runPseudo (.call d) = .next t ∧ s.wroteReg t 1#5 (s.pc + 8#32) ∧
      t.pc.toNat = (s.pc + d).toNat - (s.pc + d).toNat % 2 ∧ s.sameRest t := by
  obtain ⟨hnext, hwrote, hpc, hrest⟩ := finishReg_spec 1#5 (s.pc + immU (hi20 d)) s
  generalize (s.writeReg 1#5 (s.pc + immU (hi20 d))).advance = t at hnext hwrote hpc hrest
  have hsum : t.readReg 1#5 + immI (lo12 d) = s.pc + d := by
    rw [hwrote.readReg_self (by decide), pc_add_hi20_add_lo12]
  have hlink : t.nextPc = s.pc + 8#32 := by rw [State.nextPc, hpc, add_four_add_four]
  have hrun : s.runPseudo (.call d) = .next ((t.writeReg 1#5 t.nextPc).jump (t.jalrTarget 1#5 (lo12 d))) := by
    refine (execAll_cons_next (i := .auipc 1#5 (hi20 d)) hnext).trans ?_
    rw [execAll_one, exec_jalr_jumps fun hsent => absurd hsent.1 (by decide)]
  refine ⟨_, hrun, ?_, State.toNat_jalrTarget hsum, hrest.trans (State.sameRest_linkJump t 1#5 _ _)⟩
  rw [← hlink]
  exact hwrote.trans (State.wroteReg_linkJump t 1#5 _ _)

/-- After its `auipc`, `tail` runs `jalr x0, lo(x6)` with the pc plus the high part in x6. -/
theorem runPseudo_tail (s : State) (d : Word) :
    ∃ t, s.runPseudo (.tail d) = exec (.jalr 0#5 6#5 (lo12 d)) t ∧ s.wroteReg t 6#5 (s.pc + immU (hi20 d)) ∧
      t.readReg 6#5 = s.pc + immU (hi20 d) ∧ t.pc = s.pc + 4#32 ∧ s.sameRest t := by
  obtain ⟨hnext, hwrote, hpc, hrest⟩ := finishReg_spec 6#5 (s.pc + immU (hi20 d)) s
  have hrun := execAll_cons_next (i := .auipc 6#5 (hi20 d)) (is := [.jalr 0#5 6#5 (lo12 d)]) hnext
  rw [execAll_one] at hrun
  exact ⟨_, hrun, hwrote, hwrote.readReg_self (by decide), hpc, hrest⟩

/-- The JALR of `tail` is the exit sentinel exactly when the low part and the target are 0. -/
theorem tail_sentinel_iff (pc d : Word) :
    (lo12 d = 0#12 ∧ pc + immU (hi20 d) = 0#32) ↔ (d.toNat % 4096 = 0 ∧ pc + d = 0#32) := by
  rw [← lo12_eq_zero]
  refine and_congr_right fun hlow => ?_
  have hsum := pc_add_hi20_add_lo12 pc d
  rw [hlow, add_immI_zero] at hsum
  rw [hsum]

/-- Settles O59: each is one JAL or JALR, behind an AUIPC in `call` and `tail`; a JALR that links nothing and adds
nothing halts on a register that holds 0. -/
theorem jumpPseudoInstructions : Obligations.JumpPseudoInstructions := by
  intro s rs off d
  obtain ⟨t, hrun, hwrote, h6, hpc, hrest⟩ := runPseudo_tail s d
  obtain ⟨j, hj, hjregs, _, hjpc, hjrest⟩ := runPseudo_jal s 0#5 off
  obtain ⟨jal, hjal, _, hjalrest⟩ := runPseudo_jal s 1#5 off
  obtain ⟨jalr, hjalr, _, hjalrrest⟩ :=
    execAll_jalr_zero (s := s) (rd := 1#5) (rs1 := rs) fun h => absurd h.1 (by decide)
  refine ⟨⟨j, hj, hjregs, hjpc, hjrest⟩, ⟨jal, hjal, hjalrest⟩, fun h0 => ?_, fun hne => ?_,
    ⟨jalr, hjalr, hjalrrest⟩, rfl, runPseudo_call s d, fun hlow hzero => ?_, fun hne => ?_⟩
  · exact (execAll_one _ s).trans (exec_jalr_sentinel rfl rfl h0)
  · obtain ⟨u, hu, hregs, _, hupc, hurest⟩ :=
      execAll_jalr_zero (s := s) (rd := 0#5) (rs1 := rs) fun h => hne h.2
    exact ⟨u, hu, hregs, hupc, hurest⟩
  · obtain ⟨hlo, hbase⟩ := (tail_sentinel_iff s.pc d).2 ⟨hlow, hzero⟩
    have hx10 : t.readReg 10#5 = s.readReg 10#5 := hwrote 10#5
    rw [exec_jalr_sentinel rfl hlo (h6.trans hbase), hx10] at hrun
    rw [hbase] at hwrote
    obtain ⟨hmem, hfill, hbound, hflag, _, hcap⟩ := hrest
    exact ⟨_, hrun, rfl, hwrote, hpc, hmem, hfill, hbound, hflag, rfl, hcap⟩
  · have hjumps : ¬ (0#5 = 0#5 ∧ lo12 d = 0#12 ∧ t.readReg 6#5 = 0#32) := fun hsent => by
      obtain ⟨hlow, hzero⟩ := (tail_sentinel_iff s.pc d).1 ⟨hsent.2.1, h6.symm.trans hsent.2.2⟩
      exact hne.elim (· hlow) (· hzero)
    rw [exec_jalr_jumps hjumps, State.writeReg_zero] at hrun
    exact ⟨_, hrun, hwrote, State.toNat_jalrTarget (h6 ▸ pc_add_hi20_add_lo12 s.pc d), hrest⟩

end

/-! ## Branch pseudo-instructions -/

section
variable (a b : Word)

theorem condEq_iff : condEq a b = true ↔ a = b := beq_iff_eq

theorem condNe_iff : condNe a b = true ↔ a ≠ b := by simp [condNe]

theorem condLt_iff : condLt a b = true ↔ a.toInt < b.toInt := BitVec.slt_iff_toInt_lt

theorem condGe_iff : condGe a b = true ↔ b.toInt ≤ a.toInt := by simp [condGe, BitVec.slt]

theorem condLtu_iff : condLtu a b = true ↔ a.toNat < b.toNat := BitVec.ult_iff_toNat_lt

theorem condGeu_iff : condGeu a b = true ↔ b.toNat ≤ a.toNat := by simp [condGeu, BitVec.ult]

end

/-- A branch goes to its own address plus the offset where its condition holds, else on by 4 (R150). -/
theorem finishBranch_spec {cond : Bool} {c : Prop} (h : cond = true ↔ c) (off : BitVec 13) (s : State) :
    ∃ t, finishBranch cond off s = .next t ∧ t.regs = s.regs ∧ s.sameRest t ∧
      (c → s.isRelativePc off.toInt t.pc) ∧ (¬ c → t.pc = s.pc + 4#32) := by
  rcases finishBranch_cases cond off s with ⟨hb, ht⟩ | ⟨hb, ht⟩
  · exact ⟨_, ht, rfl, by simp [State.sameRest], fun _ => s.isRelativePc_add off (by decide),
      fun hc => absurd (h.1 hb) hc⟩
  · exact ⟨_, ht, rfl, by simp [State.sameRest], fun hc => absurd (h.2 hc) (by simp [hb]),
      fun _ => rfl⟩

/-- Settles O60: each row is one branch, with its operands in the order that makes the condition the named one. -/
theorem branchPseudoInstructions : Obligations.BranchPseudoInstructions := by
  intro s rs rt off p c hp
  suffices hbranch : ∃ cond, s.runPseudo p = finishBranch cond off s ∧ (cond = true ↔ c) by
    obtain ⟨cond, hrun, hcond⟩ := hbranch
    rw [hrun]
    exact finishBranch_spec hcond off s
  rcases hp with ⟨rfl, hc⟩ | ⟨rfl, hc⟩ | ⟨rfl, hc⟩ | ⟨rfl, hc⟩ | ⟨rfl, hc⟩ | ⟨rfl, hc⟩ | ⟨rfl, hc⟩ | ⟨rfl, hc⟩ |
    ⟨rfl, hc⟩ | ⟨rfl, hc⟩
  · exact ⟨_, execAll_one _ s, (condEq_iff _ _).trans hc.symm⟩
  · exact ⟨_, execAll_one _ s, (condNe_iff _ _).trans hc.symm⟩
  · exact ⟨_, execAll_one _ s, (condLt_iff _ _).trans hc.symm⟩
  · exact ⟨_, execAll_one _ s, (condGe_iff _ _).trans hc.symm⟩
  · exact ⟨_, execAll_one _ s, (condGe_iff _ _).trans hc.symm⟩
  · exact ⟨_, execAll_one _ s, (condLt_iff _ _).trans hc.symm⟩
  · exact ⟨_, execAll_one _ s, (condLt_iff _ _).trans hc.symm⟩
  · exact ⟨_, execAll_one _ s, (condGe_iff _ _).trans hc.symm⟩
  · exact ⟨_, execAll_one _ s, (condLtu_iff _ _).trans hc.symm⟩
  · exact ⟨_, execAll_one _ s, (condGeu_iff _ _).trans hc.symm⟩

end Sys2Proof.Machine

/-! ## Fields of a word that its opcode-table row fixes -/

namespace Sys2Proof

section
variable {w m c : Word}

/-- A field that lies inside the mask of a row is the row's own (R82). -/
theorem extractLsb'_of_and_mask {start len : Nat} (h : w &&& m = c)
    (hm : m.extractLsb' start len = BitVec.allOnes len) : w.extractLsb' start len = c.extractLsb' start len := by
  rw [← h, BitVec.extractLsb'_and, hm, BitVec.and_allOnes]

theorem bit30Of_of_and_mask (h : w &&& m = c) (hm : bit30Of m = true) : bit30Of w = bit30Of c := by
  rw [bit30Of, bit30Of, ← h, BitVec.getLsbD_and, show m.getLsbD 30 = true from hm, Bool.and_true]

/-- R80 to R82: a word of an OP-IMM row is decoded by the row's funct3 (and by bit 30, where funct3 is 101). -/
theorem decodeWord_opImm_row (h : w &&& m = c) (hmop : opcodeOf m = BitVec.allOnes 7)
    (hmf3 : funct3Of m = BitVec.allOnes 3) (hc : opcodeOf c = opOpImm) :
    decodeWord w = decodeOpImm w ∧ funct3Of w = funct3Of c :=
  ⟨decodeWord_of_opOpImm ((extractLsb'_of_and_mask h hmop).trans hc), extractLsb'_of_and_mask h hmf3⟩

end

end Sys2Proof

/-! ## Register results of the OP-IMM instructions -/

namespace Sys2Proof.Machine

/-- An instruction that ends as a register result leaves its value in rd, whatever is said of that value. -/
theorem exec_finishReg_result {i : Instr} {s : State} {rd : RegIx} {v : Word} {p : Word → Prop}
    (h : exec i s = finishReg rd v s) (hv : p v) :
    ∃ t v, exec i s = .next t ∧ p v ∧ s.wroteReg t rd v ∧ t.pc = s.pc + 4#32 ∧ s.sameRest t := by
  obtain ⟨hnext, hwrote, hpc, hrest⟩ := finishReg_spec rd v s
  exact ⟨_, v, h.trans hnext, hv, hwrote, hpc, hrest⟩

/-! ### Values -/

/-- A 12-bit field as a signed number: bit 11 takes 4096 off (R73). -/
theorem toInt_eq_ite_bit11 (f : BitVec 12) :
    f.toInt = if f.getLsbD 11 then (f.toNat : Int) - 4096 else (f.toNat : Int) := by
  rw [BitVec.toInt_eq_msb_cond, BitVec.msb_eq_getLsbD_last]
  rfl

/-- R73: bit 11 of the field is copied into the upper bits. -/
theorem getLsbD_immI (f : BitVec 12) {k : Nat} (hk : k < 32) : (immI f).getLsbD k = f.getLsbD (min k 11) := by
  rw [immI, BitVec.getLsbD_signExtend, BitVec.msb_eq_getLsbD_last, decide_eq_true hk, Bool.true_and]
  split
  · next hlow => rw [Nat.min_eq_left (by omega)]
  · next hhigh => rw [Nat.min_eq_right (by omega)]

/-- R105. -/
theorem toNat_shiftLeft (x : Word) (n : BitVec 5) :
    (shiftLeft x n).toNat = x.toNat * 2 ^ n.toNat % 4294967296 := by
  rw [shiftLeft, BitVec.toNat_shiftLeft, Nat.shiftLeft_eq]

/-- R106. -/
theorem toNat_shiftRightLogical (x : Word) (n : BitVec 5) :
    (shiftRightLogical x n).toNat = x.toNat / 2 ^ n.toNat := by
  rw [shiftRightLogical, BitVec.toNat_ushiftRight, Nat.shiftRight_eq_div_pow]

/-- R107: division of integers by a positive number rounds toward minus infinity. -/
theorem toInt_shiftRightArith (x : Word) (n : BitVec 5) :
    (shiftRightArith x n).toInt = x.toInt / (2 ^ n.toNat : Int) := by
  rw [shiftRightArith, BitVec.toInt_sshiftRight, Int.shiftRight_eq_div_pow]
  push_cast
  rfl

/-! ### The statements of 40_op_imm.md -/

/-- Settles O18: funct3 000 selects ADDI, whose sum is the one that also makes an effective address. -/
theorem addiResult : Obligations.AddiResult := by
  refine ⟨fun w h => ?_, fun s rd rs1 imm => exec_finishReg_result rfl ?_⟩
  · obtain ⟨hdec, hf3⟩ := decodeWord_opImm_row h rfl rfl rfl
    rw [hdec, decodeOpImm, hf3]
    rfl
  · rw [← toInt_eq_ite_bit11]
    exact (s.isEffectiveAddr_iff rs1 imm _).2 rfl

/-- Settles O19: funct3 111, 110 and 100 select them, and each works bit by bit on the sign-extended field. -/
theorem logicImmediateResults : Obligations.LogicImmediateResults := by
  refine ⟨?andi, ?ori, ?xori, fun s rd rs1 imm =>
    ⟨exec_finishReg_result rfl fun k hk => ?_, exec_finishReg_result rfl fun k hk => ?_,
      exec_finishReg_result rfl fun k hk => ?_⟩⟩
  case andi | ori | xori =>
    intro w h
    obtain ⟨hdec, hf3⟩ := decodeWord_opImm_row h rfl rfl rfl
    rw [hdec, decodeOpImm, hf3]
    rfl
  · rw [BitVec.getLsbD_and, getLsbD_immI imm hk]
  · rw [BitVec.getLsbD_or, getLsbD_immI imm hk]
  · rw [BitVec.getLsbD_xor, getLsbD_immI imm hk]

/-- Settles O20: funct3 001 selects SLLI without a look at bits 31:25. -/
theorem slliResult : Obligations.SlliResult := by
  refine ⟨fun w h => ?_, fun s rd rs1 sh => exec_finishReg_result rfl (toNat_shiftLeft _ sh)⟩
  obtain ⟨hdec, hf3⟩ := decodeWord_opImm_row h rfl rfl rfl
  rw [hdec, decodeOpImm, hf3]
  rfl

/-- Settles O21: funct3 101 selects both, and bit 30 tells them apart. -/
theorem rightShiftResults : Obligations.RightShiftResults := by
  refine ⟨?srli, ?srai, fun s rd rs1 sh =>
    ⟨exec_finishReg_result rfl (toNat_shiftRightLogical _ sh),
      exec_finishReg_result rfl (toInt_shiftRightArith _ sh)⟩⟩
  case srli | srai =>
    intro w h
    obtain ⟨hdec, hf3⟩ := decodeWord_opImm_row h rfl rfl rfl
    rw [hdec, decodeOpImm, hf3, bit30Of_of_and_mask h rfl]
    rfl

end Sys2Proof.Machine

/-! ## The row of a word: opcode and funct3 -/

namespace Sys2Proof

/-- R80, R81: a word of a row whose mask fixes opcode and funct3 has those of the row. -/
theorem opcode_funct3_of_row {w m c : Word} (h : w &&& m = c) (hop : opcodeOf m = BitVec.allOnes 7)
    (hf3 : funct3Of m = BitVec.allOnes 3) : opcodeOf w = opcodeOf c ∧ funct3Of w = funct3Of c :=
  ⟨extractLsb'_of_and_mask h hop, extractLsb'_of_and_mask h hf3⟩

end Sys2Proof

/-! ## Multi-byte writes: cells counted, flag, and where one is cut short -/

namespace Sys2Proof.Machine

section
variable {s t : State} {a : Word}

theorem span_add (a : Word) (m n : Nat) : span a (m + n) = span a m ++ span (a + BitVec.ofNat 32 m) n := by
  simp only [span, List.range_add, List.map_append, List.map_map, Function.comp_def, BitVec.ofNat_add,
    BitVec.add_assoc]

/-- The byte after an access is none of its bytes. -/
theorem add_not_mem_span {n : Nat} (hn : n < 4294967296) : a + BitVec.ofNat 32 n ∉ span a n := by
  rw [mem_span]
  rintro ⟨k, hk, he⟩
  have h := congrArg BitVec.toNat ((BitVec.add_right_inj a).1 he)
  rw [BitVec.toNat_ofNat, BitVec.toNat_ofNat] at h
  omega

theorem State.touchesImage_one : s.touchesImage a 1 ↔ a.toNat < s.codeBoundary := by
  simp [State.touchesImage]

/-- An access touches the image where its first bytes or its last ones do. -/
theorem State.touchesImage_add (m n : Nat) :
    s.touchesImage a (m + n) ↔ s.touchesImage a m ∨ s.touchesImage (a + BitVec.ofNat 32 m) n := by
  simp only [State.touchesImage, span_add, List.mem_append, or_and_right, exists_or]

theorem State.write8_stored_eq {v : Byte} (h : s.write8 a v = .stored t) : t = s.withByte a v := by
  have hroom : s.byteAt a = none → s.atCapacity = false := by
    intro hb
    cases hc : s.atCapacity with
    | false => rfl
    | true =>
      rw [State.write8_eq_full hb hc] at h
      cases h
  rw [State.write8_eq_stored hroom] at h
  cases h
  rfl

/-- A write that ran to its end has stored its first byte and gone on with the others. -/
theorem State.writeBytes_cons_stored {b : Byte} {bs : List Byte} (h : s.writeBytes a (b :: bs) = .stored t) :
    s.write8 a b = .stored (s.withByte a b) ∧ (s.withByte a b).writeBytes (a + 1#32) bs = .stored t := by
  rw [State.writeBytes] at h
  cases h8 : s.write8 a b with
  | full u e => simp [h8] at h
  | stored u =>
    cases State.write8_stored_eq h8
    exact ⟨rfl, by simpa only [h8] using h⟩

/-- A write that ran to its end has counted each cell it created, once. -/
theorem State.writeBytes_stored_fill {bs : List Byte} (hn : bs.length ≤ 4294967296)
    (h : s.writeBytes a bs = .stored t) : t.fill = s.fill + s.newCells a bs.length := by
  induction bs generalizing s a with
  | nil =>
    cases h
    rfl
  | cons b rest ih =>
    rw [List.length_cons] at hn ⊢
    have hrest := ih (Nat.le_of_lt hn) (State.writeBytes_cons_stored h).2
    rw [State.newCells_withByte (not_mem_span_next hn)] at hrest
    rw [hrest, State.newCells_succ, ← Nat.add_assoc]
    rfl

/-- A write that ran to its end has set the flag exactly where one of its bytes lies below the boundary. -/
theorem State.writeBytes_stored_flag {bs : List Byte} (h : s.writeBytes a bs = .stored t) :
    t.pendingFault = true ↔ s.pendingFault = true ∨ s.touchesImage a bs.length := by
  induction bs generalizing s a with
  | nil =>
    cases h
    simp [State.touchesImage]
  | cons b rest ih =>
    calc t.pendingFault = true
      _ ↔ s.flagAfterWrite a = true ∨ s.touchesImage (a + 1#32) rest.length :=
        ih (State.writeBytes_cons_stored h).2
      _ ↔ s.pendingFault = true ∨ s.touchesImage a (rest.length + 1) := by
        rw [State.flagAfterWrite_iff, Nat.add_comm, State.touchesImage_add, State.touchesImage_one, or_assoc]

/-- A write goes on after its first bytes from the state they leave. -/
theorem State.writeBytes_append {xs : List Byte} (ys : List Byte) (h : s.writeBytes a xs = .stored t) :
    s.writeBytes a (xs ++ ys) = t.writeBytes (a + BitVec.ofNat 32 xs.length) ys := by
  induction xs generalizing s a with
  | nil =>
    cases h
    rw [List.nil_append, List.length_nil, BitVec.add_zero]
  | cons x rest ih =>
    obtain ⟨hfirst, hrest⟩ := State.writeBytes_cons_stored h
    simp only [List.cons_append, State.writeBytes, hfirst, ih hrest]
    rw [List.length_cons, Nat.add_comm, BitVec.ofNat_add, BitVec.add_assoc]

/-- A write whose first `k` bytes use up the capacity, and whose byte `k` needs a cell, stores the first `k` bytes
and ends at byte `k`, where only the flag may still change. -/
theorem State.writeBytes_cut_short {bs : List Byte} {k : Nat} (hn : bs.length ≤ 4294967296) (hk : k < bs.length)
    (hb : s.byteAt (a + BitVec.ofNat 32 k) = none) (hc : s.memCapacity = some (s.fill + s.newCells a k)) :
    ∃ t, s.writeBytes a (bs.take k) = .stored t ∧ s.writeBytes a bs =
      .full (t.setFlag (t.flagAfterWrite (a + BitVec.ofNat 32 k))) (a + BitVec.ofNat 32 k) := by
  have hlen : (bs.take k).length = k := List.length_take_of_le (Nat.le_of_lt hk)
  have hroom : s.hasRoom a (bs.take k).length := by
    intro c hc'
    rw [hc] at hc'
    cases hc'
    exact .inr (by rw [hlen])
  have hlen' : (bs.take k).length ≤ 4294967296 := by omega
  obtain ⟨t, ht⟩ := State.writeBytes_of_hasRoom hlen' hroom
  have hframe := State.writeBytes_stored_frame ht
  have hfill := State.writeBytes_stored_fill hlen' ht
  rw [hlen] at hframe hfill
  have hbt : t.byteAt (a + BitVec.ofNat 32 k) = none := by
    rw [← hb]
    exact hframe.readOther _ fun e he heq => add_not_mem_span (by omega) (BitVec.eq_of_toNat_eq heq ▸ he)
  have hct : t.atCapacity = true := State.atCapacity_of_fill (by rw [hframe.memCapacity, hc, hfill])
  refine ⟨t, ht, ?_⟩
  calc s.writeBytes a bs
    _ = s.writeBytes a (bs.take k ++ bs[k] :: bs.drop (k + 1)) := by
      rw [← List.drop_eq_getElem_cons, List.take_append_drop]
    _ = t.writeBytes (a + BitVec.ofNat 32 k) (bs[k] :: bs.drop (k + 1)) := by
      rw [State.writeBytes_append _ ht, hlen]
    _ = _ := by
      rw [State.writeBytes, State.write8_eq_full hbt hct]
      rfl

end

/-! ## The stores -/

theorem getElem_bytesOf (v : Word) {k : Nat} (hk : k < (bytesOf v).length) :
    (bytesOf v)[k] = v.extractLsb' (8 * k) 8 := by
  have hk4 : k < 4 := hk
  interval_cases k <;> rfl

/-- What the write of the first `m` bytes of a word leaves when it runs to its end (R46). -/
theorem State.writeBytes_take_bytesOf {s t : State} {a v : Word} {m : Nat} (hm : m ≤ 4)
    (h : s.writeBytes a ((bytesOf v).take m) = .stored t) :
    WriteFrame s t (span a m) ∧
      (∀ k, k < m → t.byteAt (a + BitVec.ofNat 32 k) = some (v.extractLsb' (8 * k) 8)) ∧
      t.fill = s.fill + s.newCells a m ∧
      (t.pendingFault = true ↔ s.pendingFault = true ∨ s.touchesImage a m) := by
  have hlen : ((bytesOf v).take m).length = m := List.length_take_of_le hm
  have hmax : ((bytesOf v).take m).length ≤ 4294967296 := by omega
  have hframe := State.writeBytes_stored_frame h
  have hfill := State.writeBytes_stored_fill hmax h
  have hflag := State.writeBytes_stored_flag h
  rw [hlen] at hframe hfill hflag
  refine ⟨hframe, fun k hk => ?_, hfill, hflag⟩
  rw [State.writeBytes_stored_byte hmax h (hlen.symm ▸ hk), List.getElem_take, getElem_bytesOf]

section
variable {i : Instr} {s t : State} {rs1 rs2 : RegIx} {imm : BitVec 12}

/-- The effective address of a store is the one R110 describes, and the only one. -/
theorem State.eq_storeAddr {ea : Word} (h : s.isEffectiveAddr rs1 imm ea) : s.storeAddr rs1 imm = ea :=
  ((s.isEffectiveAddr_iff rs1 imm ea).1 h).symm

theorem exec_sb_of_write8 {ea : Word} {r : WriteResult} (hea : s.isEffectiveAddr rs1 imm ea)
    (h : s.write8 ea ((s.readReg rs2).extractLsb' 0 8) = r) :
    exec (.sb rs1 rs2 imm) s = finishStore (encode (.sb rs1 rs2 imm)) r := by
  rw [← h, ← State.eq_storeAddr hea]
  rfl

theorem exec_sw_of_writeBytes {ea : Word} {r : WriteResult} (hea : s.isEffectiveAddr rs1 imm ea)
    (h : s.writeBytes ea (bytesOf (s.readReg rs2)) = r) :
    exec (.sw rs1 rs2 imm) s = finishStore (encode (.sw rs1 rs2 imm)) r := by
  rw [← h, ← State.eq_storeAddr hea]
  rfl

/-- A store has no destination register (R22). -/
theorem destReg_of_storeSpan {p : Word × Nat} (h : storeSpan i s = some p) : destReg i = none := by
  cases i with
  | sb | sw => rfl
  | _ => cases h

end

/-! ### The statements of 41_store.md -/

/-- Settles O34: funct3 000 selects SB, and its store is one `write8`. -/
theorem byteStore : Obligations.ByteStore := by
  refine ⟨fun w h => ?_, fun s rs1 rs2 imm ea hea => ?_⟩
  · obtain ⟨hop, hf3⟩ := opcode_funct3_of_row h rfl rfl
    rw [decodeWord_of_opStore hop, decodeStore, hf3]
    rfl
  obtain ⟨hwrites, hfull⟩ := bytePrimitiveWrites s ea ((s.readReg rs2).extractLsb' 0 8)
  constructor
  · intro hcell
    have hcell' : (s.byteAt ea).isSome = true ∨ s.memCapacity = none ∨
        ∃ c, s.memCapacity = some c ∧ s.fill < c := by
      cases hcap : s.memCapacity with
      | none => exact .inr (.inl rfl)
      | some c => exact hcell.imp_right fun hroom => .inr ⟨c, rfl, hroom c hcap⟩
    obtain ⟨t, ht, hbyte, hother, hfill, hflag, hregs, hpc, hbound, hrun, hcap⟩ := hwrites hcell'
    exact ⟨t.advance, exec_sb_of_write8 hea ht, hbyte, hother, hfill, hflag, hregs,
      by rw [State.advance_pc, hpc], hrun, hbound, hcap⟩
  · intro hb hcap
    obtain ⟨t, ht, hmem, hfill, hflag, hregs, hpc, hbound, _, hcap'⟩ := hfull hb hcap
    exact ⟨_, exec_sb_of_write8 hea ht, by rw [State.raise_run, hpc], hmem, hfill, hregs, hpc, hflag, hbound, hcap'⟩

/-- Settles O35: funct3 010 selects SW, and its store is a write of four bytes, all of them where there is room,
else those before the byte that finds no cell. -/
theorem wordStore : Obligations.WordStore := by
  refine ⟨fun w h => ?_, fun s rs1 rs2 imm ea hea => ?_⟩
  · obtain ⟨hop, hf3⟩ := opcode_funct3_of_row h rfl rfl
    rw [decodeWord_of_opStore hop, decodeStore, hf3]
    rfl
  have hlen : (bytesOf (s.readReg rs2)).length ≤ 4294967296 := by rw [length_bytesOf]; decide
  constructor
  · intro hroom
    obtain ⟨t, ht⟩ := State.writeBytes_of_hasRoom hlen hroom
    obtain ⟨hframe, hbytes, hfill, hflag⟩ := State.writeBytes_take_bytesOf (Nat.le_refl 4) ht
    exact ⟨t.advance, exec_sw_of_writeBytes hea ht, hbytes, hframe.readOther, hfill, hflag, hframe.regs,
      by rw [State.advance_pc, hframe.pc], hframe.run, hframe.codeBoundary, hframe.memCapacity⟩
  · intro k hk hb hc
    obtain ⟨t, ht, hfull⟩ := State.writeBytes_cut_short hlen hk hb hc
    obtain ⟨hframe, hbytes, hfill, hflag⟩ := State.writeBytes_take_bytesOf (Nat.le_of_lt hk) ht
    have hflag' : t.flagAfterWrite (ea + BitVec.ofNat 32 k) = true ↔
        s.pendingFault = true ∨ s.touchesImage ea (k + 1) := by
      rw [State.flagAfterWrite_iff, hflag, hframe.codeBoundary, State.touchesImage_add, State.touchesImage_one,
        or_assoc]
    refine ⟨_, exec_sw_of_writeBytes hea hfull, ?_, hbytes, hframe.readOther, hfill, hflag', hframe.regs, hframe.pc,
      hframe.codeBoundary, hframe.memCapacity⟩
    rw [State.raise_run, ← hframe.pc]
    rfl

/-- Settles O42: the meaning of a store changes the store by writes to its own bytes only, and no register. -/
theorem frameOfStores : Obligations.FrameOfStores := by
  intro i s t a n hs h
  obtain ⟨u, hframe, hut, _⟩ := exec_writeFrame h
  have hbytes : storedBytes i s = span a n := by simp only [storedBytes, hs]
  rw [hbytes] at hframe
  refine ⟨fun r => exec_readReg_other h ?_, fun b hb => ?_, hut.codeBoundary.trans hframe.codeBoundary,
    hut.memCapacity.trans hframe.memCapacity, fun hf => ?_⟩
  · rw [destReg_of_storeSpan hs]
    nofun
  · rw [hut.mem, hframe.readOther b hb]
  · rw [hut.pendingFault, hframe.keepsFlag hf]

end Sys2Proof.Machine

/-! ## The statement of 42_lui.md -/

namespace Sys2Proof.Machine

/-- Settles O23: the opcode alone selects LUI, and its upper immediate is the field times 4096. -/
theorem luiResult : Obligations.LuiResult :=
  ⟨fun _ h => decodeWord_of_opLui (extractLsb'_of_and_mask h rfl),
    fun _ _ imm => exec_finishReg_result rfl (toNat_immU imm)⟩

end Sys2Proof.Machine

/-! ## The end of a load -/

namespace Sys2Proof

/-- R80, R81: a word of a LOAD row is decoded by the row's funct3. -/
theorem decodeWord_load_row {w c : Word} (h : w &&& 0x0000707F#32 = c) (hc : opcodeOf c = opLoad) :
    decodeWord w = decodeLoad w ∧ funct3Of w = funct3Of c := by
  obtain ⟨hop, hf3⟩ := opcode_funct3_of_row h rfl rfl
  exact ⟨decodeWord_of_opLoad (hop.trans hc), hf3⟩

end Sys2Proof

namespace Sys2Proof.Machine

section
variable {α β : Type} {f : α → β} {r : ReadResult α}

theorem ReadResult.map_of_ok {v : α} (h : r = .ok v) : r.map f = .ok (f v) := by
  rw [h]
  rfl

theorem ReadResult.map_of_absent {a : Word} (h : r = .absent a) : r.map f = .absent a := by
  rw [h]
  rfl

end

section
variable {i : Instr} {s : State} {rd : RegIx} {r : ReadResult Word}

/-- A load whose bytes are backed leaves the value it read in rd, whatever is said of that value (R130). -/
theorem exec_finishLoad_result {v : Word} {p : Word → Prop} (h : exec i s = finishLoad (encode i) rd r s)
    (hr : r = .ok v) (hv : p v) :
    ∃ t v, exec i s = .next t ∧ p v ∧ s.wroteReg t rd v ∧ t.pc = s.pc + 4#32 ∧ s.sameRest t := by
  subst hr
  exact exec_finishReg_result h hv

/-- A load of an unbacked byte ends the run with its own word in the record and changes nothing else (R130, R201). -/
theorem exec_finishLoad_fault {a : Word} (h : exec i s = finishLoad (encode i) rd r s) (hr : r = .absent a) :
    exec i s = .next { s with run := .faulted (.segmentationFault s.pc (some (encode i)) a) } := by
  subst hr
  exact h

/-- The effective address of a load is the one R130 describes, and the only one. -/
theorem State.eq_loadAddr {rs1 : RegIx} {imm : BitVec 12} {ea : Word} (h : s.isEffectiveAddr rs1 imm ea) :
    ea = s.loadAddr rs1 imm :=
  (s.isEffectiveAddr_iff rs1 imm ea).1 h

end

/-! ### The statements of 43_load.md -/

/-- Settles O31: funct3 000 and 100 select them, and each widens the one byte that `read8` answers. -/
theorem byteLoads : Obligations.ByteLoads := by
  refine ⟨?lb, ?lbu, fun s rd rs1 imm ea hea => ?_⟩
  case lb | lbu =>
    intro w h
    obtain ⟨hdec, hf3⟩ := decodeWord_load_row h rfl
    rw [hdec, decodeLoad, hf3]
    rfl
  obtain rfl := State.eq_loadAddr hea
  constructor
  · intro b hb
    have hread := State.read8_ok.2 hb
    exact ⟨exec_finishLoad_result rfl (ReadResult.map_of_ok hread) (BitVec.toInt_signExtend_of_le (by decide)),
      exec_finishLoad_result rfl (ReadResult.map_of_ok hread) (BitVec.toNat_setWidth_of_le (by decide))⟩
  · intro hb
    have hread := State.read8_absent.2 ⟨rfl, hb⟩
    exact ⟨exec_finishLoad_fault rfl (ReadResult.map_of_absent hread),
      exec_finishLoad_fault rfl (ReadResult.map_of_absent hread)⟩

/-- Settles O32: funct3 101 selects LHU, which widens the little-endian value of its two bytes. -/
theorem halfwordLoad : Obligations.HalfwordLoad := by
  refine ⟨fun w h => ?_, fun s rd rs1 imm ea hea => ?_⟩
  · obtain ⟨hdec, hf3⟩ := decodeWord_load_row h rfl
    rw [hdec, decodeLoad, hf3]
    rfl
  obtain rfl := State.eq_loadAddr hea
  constructor
  · intro b0 b1 h0 h1
    exact exec_finishLoad_result rfl (ReadResult.map_of_ok (State.read16_of_bytes h0 h1))
      ((BitVec.toNat_setWidth_of_le (by decide)).trans (toNat_half_of_bytes b0 b1))
  · intro k hk habs
    exact exec_finishLoad_fault rfl (ReadResult.map_of_absent (State.read16_firstAbsent hk habs))

/-- Settles O33: funct3 010 selects LW, which reads its four bytes without a look at their alignment. -/
theorem wordLoad : Obligations.WordLoad := by
  refine ⟨fun w h => ?_, fun s rd rs1 imm ea hea => ?_⟩
  · obtain ⟨hdec, hf3⟩ := decodeWord_load_row h rfl
    rw [hdec, decodeLoad, hf3]
    rfl
  obtain rfl := State.eq_loadAddr hea
  constructor
  · intro b0 b1 b2 b3 h0 h1 h2 h3
    exact exec_finishLoad_result rfl (State.read32_of_bytes h0 h1 h2 h3) (toNat_word_of_halves b0 b1 b2 b3)
  · intro k hk habs
    exact exec_finishLoad_fault rfl (State.read32_firstAbsent hk habs)

end Sys2Proof.Machine

/-! ## The statements of 44_jalr.md -/

namespace Sys2Proof.Machine

/-- Only the exit sentinel has a meaning that halts, and it halts with x10 (R141, R207). -/
theorem exec_halted {i : Instr} {s t : State} {v : Word} (hrunning : s.run = .running) (h : exec i s = .next t)
    (hrun : t.run = .halted v) :
    ∃ rs1, i = .jalr 0#5 rs1 0#12 ∧ s.readReg rs1 = 0#32 ∧ v = s.readReg 10#5 := by
  cases exec_outcome h with
  | halted rs1 hi h0 ht =>
    rw [ht, State.halt_run, RunState.halted.injEq] at hrun
    exact ⟨rs1, hi, h0, hrun.symm⟩
  | wrote _ _ _ _ _ _ _ ht => simp [ht, hrunning] at hrun
  | branched _ _ _ _ _ ht => simp [ht, hrunning] at hrun
  | stored u _ _ _ hf ht => simp [ht, hf.run, hrunning] at hrun
  | segfaulted _ _ _ _ ht => simp [ht] at hrun
  | full _ _ _ _ _ _ _ _ _ _ ht => simp [ht] at hrun

/-- Settles O26: funct3 000 selects JALR, and its target is the effective address with bit 0 cleared. -/
theorem jalrJumps : Obligations.JalrJumps := by
  refine ⟨fun w h => ?_, fun s rd rs1 imm hsent => ?_⟩
  · obtain ⟨hop, hf3⟩ := opcode_funct3_of_row h rfl rfl
    exact (decodeWord_of_opJalr hop).trans (if_pos hf3)
  · exact ⟨_, exec_jalr_jumps hsent, State.wroteReg_linkJump s rd _ _,
      fun ea hea => State.toNat_jalrTarget (State.eq_loadAddr hea).symm, State.sameRest_linkJump s rd _ _⟩

/-- Settles O27: the sentinel's meaning only halts, and an ended run has no step. -/
theorem jalrSentinelHalts : Obligations.JalrSentinelHalts := by
  intro s rd rs1 imm hrd himm hreg
  refine ⟨_, exec_jalr_sentinel hrd himm hreg, rfl, fun u hu => ?_⟩
  rw [step_of_halted (State.halt_run s _)] at hu
  cases hu

/-- Settles O53: a step that raises ends with a fault, so the halt is that of a meaning. -/
theorem onlyTheSentinelHalts : Obligations.OnlyTheSentinelHalts := by
  intro s t v h hrun
  have hrunning : s.run = .running := (step_cases h).1
  rcases step_raise_or_exec h with ⟨r, rfl⟩ | ⟨i, hi, he⟩
  · cases hrun
  · obtain ⟨rs1, rfl, h0, hv⟩ := exec_halted hrunning he hrun
    exact ⟨rs1, hi, h0, hv⟩

end Sys2Proof.Machine

/-! ## The words of the BRANCH rows -/

namespace Sys2Proof

/-- R80, R81: a word of a BRANCH row is the encoding of the row's instruction with the word's own fields, so it
decodes to that instruction. -/
theorem decodeWord_branch_row {w c : Word} {i : Instr} (h : w &&& 0x0000707F#32 = c) (hc : opcodeOf c = opBranch)
    (hi : encode i = encodeB (immBOf w) (rs2Of w) (rs1Of w) (funct3Of c) opBranch) (hwf : i.wf = true) :
    decodeWord w = .ok i := by
  obtain ⟨hop, hf3⟩ := opcode_funct3_of_row h rfl rfl
  rw [← encodeB_fields (hop.trans hc) hf3, ← hi]
  exact decodeWord_encode hwf

end Sys2Proof

/-! ## The meaning of a branch -/

namespace Sys2Proof.Machine

/-- A branch goes to its own address plus the offset under the condition `c` it tests, and on by 4 under a
condition `d` that excludes `c` (R150). -/
theorem exec_finishBranch_spec {i : Instr} {s : State} {cond : Bool} {off : BitVec 13} {c d : Prop}
    (h : exec i s = finishBranch cond off s) (hc : cond = true ↔ c) (hd : d → ¬ c) :
    ∃ t, exec i s = .next t ∧ t.regs = s.regs ∧ s.sameRest t ∧
      (c → s.isRelativePc off.toInt t.pc) ∧ (d → t.pc = s.pc + 4#32) := by
  obtain ⟨t, ht, hregs, hrest, htaken, hnot⟩ := finishBranch_spec hc off s
  exact ⟨t, h.trans ht, hregs, hrest, htaken, fun hexcl => hnot (hd hexcl)⟩

/-! ### The statements of 45_branch.md -/

/-- Settles O28: funct3 000 and 001 select them; BEQ tests equality and BNE its negation. -/
theorem equalityBranches : Obligations.EqualityBranches := by
  refine ⟨?beq, ?bne, fun s rs1 rs2 off => ⟨?_, ?_⟩⟩
  case beq | bne => exact fun w h => decodeWord_branch_row h rfl rfl (evenOffset_immBOf w)
  · exact exec_finishBranch_spec rfl (condEq_iff _ _) id
  · exact exec_finishBranch_spec rfl (condNe_iff _ _) not_not_intro

/-- Settles O29: funct3 100 and 101 select them, and each compares the two's-complement readings. -/
theorem signedBranches : Obligations.SignedBranches := by
  refine ⟨?blt, ?bge, fun s rs1 rs2 off => ⟨?_, ?_⟩⟩
  case blt | bge => exact fun w h => decodeWord_branch_row h rfl rfl (evenOffset_immBOf w)
  · exact exec_finishBranch_spec rfl (condLt_iff _ _) Int.not_lt_of_ge
  · exact exec_finishBranch_spec rfl (condGe_iff _ _) Int.not_le_of_gt

/-- Settles O30: funct3 110 and 111 select them, and each compares the unsigned readings. -/
theorem unsignedBranches : Obligations.UnsignedBranches := by
  refine ⟨?bltu, ?bgeu, fun s rs1 rs2 off => ⟨?_, ?_⟩⟩
  case bltu | bgeu => exact fun w h => decodeWord_branch_row h rfl rfl (evenOffset_immBOf w)
  · exact exec_finishBranch_spec rfl (condLtu_iff _ _) Nat.not_lt_of_le
  · exact exec_finishBranch_spec rfl (condGeu_iff _ _) Nat.not_le_of_lt

end Sys2Proof.Machine

/-! ## The statement of 46_auipc.md -/

namespace Sys2Proof.Machine

/-- The upper immediate of AUIPC is added to its own address modulo 2^32 (R76, R160). -/
theorem toNat_add_immU (pc : Word) (imm : BitVec 20) :
    (pc + immU imm).toNat = (pc.toNat + imm.toNat * 4096) % 4294967296 := by
  rw [BitVec.toNat_add, toNat_immU]

/-- Settles O24: the opcode alone selects AUIPC, and its sum takes the pc before the advance. -/
theorem auipcResult : Obligations.AuipcResult :=
  ⟨fun _ h => decodeWord_of_opAuipc (extractLsb'_of_and_mask h rfl),
    fun s _ imm => exec_finishReg_result rfl (toNat_add_immU s.pc imm)⟩

end Sys2Proof.Machine

/-! ## The statements of 47_jal.md and 48_op.md -/

namespace Sys2Proof.Machine

/-- Settles O25: the opcode alone selects JAL; its meaning links and jumps and does nothing else, so it never halts. -/
theorem jalResult : Obligations.JalResult :=
  ⟨fun w h => ⟨immJOf w, decodeWord_of_opJal (extractLsb'_of_and_mask h rfl), rfl⟩,
    fun s rd off => ⟨_, rfl, State.wroteReg_linkJump s rd _ _, s.isRelativePc_add off (by decide),
      State.sameRest_linkJump s rd _ _⟩⟩

/-- A difference of words is the difference of their values modulo 2^32 (R182). -/
theorem toNat_sub_eq_emod (x y : Word) :
    ((x - y).toNat : Int) = ((x.toNat : Int) - (y.toNat : Int)) % 4294967296 := by
  rw [BitVec.toNat_sub]
  omega

/-- Settles O22: funct3 000 selects both, and bit 30 tells them apart. -/
theorem addSubResults : Obligations.AddSubResults := by
  refine ⟨?add, ?sub, fun s rd rs1 rs2 =>
    ⟨exec_finishReg_result rfl (BitVec.toNat_add _ _), exec_finishReg_result rfl (toNat_sub_eq_emod _ _)⟩⟩
  case add | sub =>
    intro w h
    obtain ⟨hop, hf3⟩ := opcode_funct3_of_row h rfl rfl
    rw [decodeWord_of_opOp hop, decodeOp, hf3, bit30Of_of_and_mask h rfl]
    rfl

end Sys2Proof.Machine

/-! ## Stores into the image -/

namespace Sys2Proof.Machine

/-- The bytes an instruction stores, the first at the lowest address (R111, R112). -/
def storeData (i : Instr) (s : State) : List Byte :=
  match i with
  | .sb _ rs2 _ => [byteOf (s.readReg rs2) 0]
  | .sw _ rs2 _ => bytesOf (s.readReg rs2)
  | _ => []

section
variable {i : Instr} {s : State} {a : Word} {n : Nat}

/-- `write8` is the write of a list of one byte. -/
theorem State.writeBytes_singleton (s : State) (a : Word) (v : Byte) : s.writeBytes a [v] = s.write8 a v := by
  rw [State.writeBytes]
  cases s.write8 a v <;> rfl

/-- A store writes its data at its effective address, one byte for each address of its span (R110 to R112). -/
theorem exec_of_storeSpan (h : storeSpan i s = some (a, n)) :
    exec i s = finishStore (encode i) (s.writeBytes a (storeData i s)) ∧ (storeData i s).length = n := by
  cases i with
  | sb rs1 rs2 imm =>
    cases h
    exact ⟨by rw [storeData, State.writeBytes_singleton]; rfl, rfl⟩
  | sw rs1 rs2 imm =>
    cases h
    exact ⟨rfl, rfl⟩
  | _ => cases h

theorem storeSpan_le (h : storeSpan i s = some (a, n)) : n ≤ 4 := by
  cases i with
  | sb | sw =>
    cases h
    decide
  | _ => cases h

/-- A store with room for its bytes completes: each byte stands at its address, the pc is advanced, and the flag is
set where a byte lies below the boundary (R45, R110). -/
theorem exec_store_of_hasRoom (hs : storeSpan i s = some (a, n)) (hroom : s.hasRoom a n) :
    ∃ t, exec i s = .next t ∧ t.run = s.run ∧ t.pc = s.pc + 4#32 ∧
      (t.pendingFault = true ↔ s.pendingFault = true ∨ s.touchesImage a n) ∧
      ∀ k (hk : k < (storeData i s).length), t.byteAt (a + BitVec.ofNat 32 k) = some (storeData i s)[k] := by
  obtain ⟨hexec, rfl⟩ := exec_of_storeSpan hs
  have hlen : (storeData i s).length ≤ 4294967296 := Nat.le_trans (storeSpan_le hs) (by decide)
  obtain ⟨u, hu⟩ := State.writeBytes_of_hasRoom hlen hroom
  have hframe := State.writeBytes_stored_frame hu
  rw [hu] at hexec
  have hflag := State.writeBytes_stored_flag hu
  exact ⟨u.advance, hexec, hframe.run, by rw [State.advance_pc, hframe.pc], hflag,
    fun _ hk => State.writeBytes_stored_byte hlen hu hk⟩

end

/-- Settles O16: the store completes with the flag set, and the checkpoint of the next cycle reads the flag. -/
theorem illegalStoreEndsRunNextCycle : Obligations.IllegalStoreEndsRunNextCycle := by
  rintro s i a n ⟨w, hw, hd⟩ hs hroom himage
  obtain ⟨t, he, hrun, hpc, hflag, hbytes⟩ := exec_store_of_hasRoom hs hroom
  have hlen : (storeData i s).length = n := (exec_of_storeSpan hs).2
  have htrun : t.run = .running := hrun.trans hw.1.1
  have htflag : t.pendingFault = true := hflag.2 (.inr himage)
  refine ⟨t, (step_of_decodes hw hd).trans he, htrun, htflag, hpc, fun e hmem => ?_, ?sb, ?sw, ?_, ?_⟩
  · obtain ⟨k, hk, rfl⟩ := mem_span.1 hmem
    rw [hbytes k (hlen.symm ▸ hk)]
    rfl
  case sb =>
    rintro rs1 rs2 imm rfl
    have h0 := hbytes 0 (by simp [storeData])
    rwa [BitVec.add_zero] at h0
  case sw =>
    rintro rs1 rs2 imm rfl
    exact State.read32_of_bytesOf fun k hk => (hbytes k hk).trans (congrArg some (getElem_bytesOf _ hk))
  · rw [traceRecord_of_completes hw hd he htrun]
    rfl
  · rw [← hpc]
    exact step_of_pendingFault htrun htflag

end Sys2Proof.Machine

/-! ## How a step ends a run -/

namespace Sys2Proof.Machine

section
variable {i : Instr} {s t : State} {w : Word}

/-- An instruction that ends the run is a load of an absent byte, the exit sentinel, or a store cut short; the
first two change nothing but `run` (R209, R210). -/
theorem exec_ends_run (hrunning : s.run = .running) (h : exec i s = .next t) (hend : t.run ≠ .running) :
    (significantBits i = 0xFFFFFFFF#32 ∧ ∃ a, s.byteAt a = none ∧
      t = s.raise (.segmentationFault s.pc (some (encode i)) a)) ∨
    (∃ v, t = s.halt v) ∨
    (significantBits i = 0xFFFFFFFF#32 ∧ ∃ u a c, WriteFrame s u (storedBytes i s) ∧ u.byteAt a = none ∧
      s.memCapacity = some c ∧ c ≤ u.fill ∧ t = u.raise (.outOfCapacity s.pc (some (encode i)) a)) := by
  cases exec_outcome h with
  | segfaulted a _ ha hi ht => exact .inl ⟨hi, a, ha, ht⟩
  | halted _ _ _ ht => exact .inr (.inl ⟨_, ht⟩)
  | full u a c _ _ hf ha hc hle hi ht => exact .inr (.inr ⟨hi, u, a, c, hf, ha, hc, hle, ht⟩)
  | wrote _ _ _ _ _ _ _ ht => simp [ht, hrunning] at hend
  | branched _ _ _ _ _ ht => simp [ht, hrunning] at hend
  | stored u _ _ _ hf ht => simp [ht, hf.run, hrunning] at hend

/-- The record of a load's or a store's fault holds the fetched word: no bit of it is ignored (log entry 6). -/
theorem encode_eq_of_significantBits (hd : decodeWord w = .ok i) (hi : significantBits i = 0xFFFFFFFF#32) :
    encode i = w := by
  have hagree := encode_agrees_of_decodeWord hd
  rw [hi, show 0xFFFFFFFF#32 = BitVec.allOnes 32 from rfl, BitVec.and_allOnes, BitVec.and_allOnes] at hagree
  exact hagree.symm

/-- An ended run stays ended (R30). -/
theorem step_raise_ne_next (r : FaultRecord) (u : State) : step (s.raise r) ≠ .next u := by
  rw [step_of_faulted (State.raise_run s r)]
  nofun

end

/-! ### The statements of 60_exceptions.md -/

/-- Settles O15: a word of R84's list decodes to no instruction, and the step raises its record. -/
theorem unknownWordEndsRun : Obligations.UnknownWordEndsRun := by
  intro s w hw hunknown
  obtain ⟨why, hd⟩ := (unknownWordsAreExactly w).2 hunknown
  exact ⟨_, step_of_unknown hw hd, rfl, step_raise_ne_next _⟩

/-- Settles O17: the fetch reads its four bytes in order and answers the first absent one. -/
theorem fetchOfAbsentCellFaults : Obligations.FetchOfAbsentCellFaults :=
  fun _ _ hk hf habsent => step_of_fetch_absent hf (State.read32_firstAbsent hk habsent)

/-- Settles O52: only a store cut short changes more than `run`, and its writes change memory, fill and flag. -/
theorem endOfRunChangesOnlyRun : Obligations.EndOfRunChangesOnlyRun := by
  intro s t h hend
  rcases step_raise_or_exec h with ⟨r, rfl⟩ | ⟨i, _, he⟩
  · exact ⟨rfl, rfl, rfl, fun _ => rfl⟩
  rcases exec_ends_run (step_cases h).1 he hend with ⟨_, a, _, rfl⟩ | ⟨v, rfl⟩ | ⟨_, u, a, c, hf, _, _, _, rfl⟩
  · exact ⟨rfl, rfl, rfl, fun _ => rfl⟩
  · exact ⟨rfl, rfl, rfl, fun _ => rfl⟩
  · exact ⟨hf.regs, hf.pc, hf.codeBoundary, fun hnot => absurd rfl (hnot _ _ _)⟩

/-- Settles O54: the record is the one its raise writes, at the checkpoint, at the fetch, for an unknown word, or in
a load or a store. -/
theorem faultRecordsAreOfThisCycle : Obligations.FaultRecordsAreOfThisCycle := by
  intro s t r h hrun
  obtain ⟨hrunning, ⟨hflag, rfl⟩ | ⟨hfetches, a, ha, rfl⟩ | ⟨w, why, hw, hd, rfl⟩ | ⟨w, i, hw, hd, he⟩⟩ :=
    step_cases h
  · cases hrun
    exact ⟨rfl, hrunning, hflag⟩
  · cases hrun
    exact ⟨rfl, hfetches, ha, State.read32_absent_byte ha⟩
  · cases hrun
    exact ⟨rfl, hw, rfl, (unknownWordsAreExactly w).1 ⟨why, hd⟩⟩
  · rcases exec_ends_run hrunning he (by simp [hrun]) with
      ⟨hi, a, ha, rfl⟩ | ⟨v, rfl⟩ | ⟨hi, u, a, c, _, ha, hc, hle, rfl⟩
    · cases hrun
      rw [encode_eq_of_significantBits hd hi]
      exact ⟨rfl, hw, ha⟩
    · cases hrun
    · cases hrun
      rw [encode_eq_of_significantBits hd hi]
      exact ⟨rfl, hw, ha, c, hc, hle⟩

end Sys2Proof.Machine

/-! ## The trace record of a step -/

namespace Sys2Proof.Machine

section
variable {i : Instr} {s t : State} {w : Word}

/-- The cycle of an instruction that ends the run emits no record (R218, D16). -/
theorem traceRecord_of_ends (h : s.fetchesWord w) (hd : decodeWord w = .ok i) (he : exec i s = .next t)
    (hend : t.run ≠ .running) : traceRecord s = none := by
  obtain ⟨hfetches, hf⟩ := h
  refine (if_pos hfetches).trans ?_
  simp only [hf, hd, completedRecord, he, hend, if_false]

theorem mem_allRegs (r : RegIx) : r ∈ allRegs :=
  List.mem_map.2 ⟨r.toNat, List.mem_range.2 r.isLt, by rw [BitVec.ofNat_toNat, BitVec.setWidth_eq]⟩

/-- The deltas are the registers whose values differ, each with both values (log entry 8). -/
theorem mem_regDeltas {d : RegDelta} : d ∈ regDeltas s t ↔
    s.readReg d.reg ≠ t.readReg d.reg ∧ d = ⟨d.reg, s.readReg d.reg, t.readReg d.reg⟩ := by
  simp only [regDeltas, List.mem_map, List.mem_filter, mem_allRegs, true_and, bne_iff_ne]
  constructor
  · rintro ⟨r, hne, rfl⟩
    exact ⟨hne, rfl⟩
  · rintro ⟨hne, hd⟩
    exact ⟨d.reg, hne, hd.symm⟩

/-- A step that leaves the machine running is the meaning of the word it fetched. -/
theorem step_completes (h : step s = .next t) (hrun : t.run = .running) :
    ∃ w i, s.fetchesWord w ∧ decodeWord w = .ok i ∧ exec i s = .next t := by
  obtain ⟨_, ⟨_, rfl⟩ | ⟨_, _, _, rfl⟩ | ⟨_, _, _, _, rfl⟩ | hexec⟩ := step_cases h
  · cases hrun
  · cases hrun
  · cases hrun
  · exact hexec

/-- A step that ends the run emits no record, wherever its cycle ends. -/
theorem traceRecord_of_step_ends (h : step s = .next t) (hend : t.run ≠ .running) : traceRecord s = none := by
  obtain ⟨_, ⟨hflag, _⟩ | ⟨_, a, ha, _⟩ | ⟨w, why, hw, hd, _⟩ | ⟨w, i, hw, hd, he⟩⟩ := step_cases h
  · exact traceRecord_of_not_fetches fun hf => by simp [hf.2] at hflag
  · exact traceRecord_of_fetch_absent ha
  · exact traceRecord_of_unknown hw.2 hd
  · exact traceRecord_of_ends hw hd he hend

end

/-- Settles O55: a record is emitted for a completed instruction only, and its deltas are `regDeltas`. -/
theorem traceRecordOfCompletedInstruction : Obligations.TraceRecordOfCompletedInstruction := by
  refine fun s t h => ⟨traceRecord_of_step_ends h, fun hrun => ?_⟩
  obtain ⟨w, i, hw, hd, he⟩ := step_completes h hrun
  refine ⟨w, i, regDeltas s t, hw, hd, traceRecord_of_completes hw hd he hrun, fun d hmem => ?_, fun r => ?_⟩
  · rw [(mem_regDeltas.1 hmem).2]
    exact ⟨rfl, rfl⟩
  · constructor
    · rintro ⟨d, hmem, rfl⟩
      exact (mem_regDeltas.1 hmem).1
    · exact fun hne => ⟨⟨r, s.readReg r, t.readReg r⟩, mem_regDeltas.2 ⟨hne, rfl⟩, rfl⟩

end Sys2Proof.Machine

/-! ## Runs from the load sequence -/

namespace Sys2Proof.Machine

section
variable {cap : Option Nat} {img : List Byte} {s : State}

/-- The load sequence loads every image of at most 2^32 bytes and refuses every other (R252). -/
theorem load_of_fits (h : img.length ≤ Config.addressSpace) : load cap img = .next (loadedState cap img) := if_pos h

theorem load_of_too_long (h : Config.addressSpace < img.length) : load cap img = .refused .imageTooLong :=
  if_neg (Nat.not_le_of_lt h)

theorem load_next (h : load cap img = .next s) : img.length ≤ Config.addressSpace ∧ s = loadedState cap img := by
  by_cases hfits : img.length ≤ Config.addressSpace
  · rw [load_of_fits hfits] at h
    cases h
    exact ⟨hfits, rfl⟩
  · rw [load_of_too_long (Nat.lt_of_not_le hfits)] at h
    cases h

/-- R252: the machine starts Running exactly when its cells fit the capacity. -/
theorem startRun_eq_running_iff {cells : Nat} :
    startRun cap cells = .running ↔ ∀ c, cap = some c → cells ≤ c := by
  cases cap <;> simp [startRun]

/-- R252: with more cells than the capacity the machine starts in Faulted(OutOfCapacity). -/
theorem startRun_of_over_capacity {c cells : Nat} (h : c < cells) :
    startRun (some c) cells = .faulted (.outOfCapacity Config.resetVector none (BitVec.ofNat 32 c)) :=
  if_neg (Nat.not_le_of_lt h)

/-- Every register is 0 after the load sequence (R250). -/
theorem readReg_loadedState (cap : Option Nat) (img : List Byte) (r : RegIx) :
    (loadedState cap img).readReg r = 0#32 := by
  unfold State.readReg
  split
  · rfl
  · exact Vector.getElem_replicate _

/-- The load sequence establishes the invariant, also for an image that does not fit the capacity. -/
theorem loadedState_inv (h : img.length ≤ Config.addressSpace) : (loadedState cap img).Inv where
  memWf := wf_loadedCells h
  fillCounts := rfl
  x0Unwritten := Vector.getElem_replicate _
  pcEven := BitVec.getLsbD_zero
  boundaryInRange := h
  imageBacked := fun a ha => by
    have ha' : a < img.length := ha
    rw [show (loadedState cap img).mem = loadedCells img from rfl, read_loadedCells, if_pos ha',
      List.getElem?_eq_getElem ha']
    rfl
  withinCapacity := fun hrun => startRun_eq_running_iff.1 hrun

end

/-- What every step of a machine keeps holds of every state of a run. -/
theorem run_keeps {M : Host.Core} {p : M.State → Prop} (hstep : ∀ s t, p s → M.step s = .next t → p t) {k : Nat}
    {s t : M.State} (hs : p s) (h : M.run k s = .next t) : p t := by
  induction k generalizing s with
  | zero =>
    cases h
    exact hs
  | succ k ih =>
    rw [Host.Core.run] at h
    cases hnext : M.step s with
    | next u => exact ih (hstep s u hs hnext) (by simpa only [hnext] using h)
    | fault r => simp [hnext] at h
    | refused r => simp [hnext] at h

/-! ### The statements of 70_reset_and_hazards.md -/

/-- Settles O44: reset is the load sequence of the empty image. -/
theorem resetMeetsInvariant : Obligations.ResetMeetsInvariant := by
  unfold Obligations.ResetMeetsInvariant
  rw [← loadedState_empty]
  exact loadedState_inv (by decide)

/-- Settles O45: the load sequence establishes the invariant and every step keeps it. -/
theorem runsFromLoadKeepInvariant : Obligations.RunsFromLoadKeepInvariant := by
  intro cap img s h
  obtain ⟨hfits, rfl⟩ := load_next h
  have hinv : (loadedState cap img).Inv := loadedState_inv hfits
  exact ⟨hinv, fun k t hrun => run_keeps (M := core) stepKeepsInvariant hinv hrun⟩

/-- Settles O46: the fields of the loaded state, its memory by `read_loadedCells` and its run state by whether
the cells fit. -/
theorem loadSequenceLeaves : Obligations.LoadSequenceLeaves := by
  refine fun cap img => ⟨fun h => ?_, load_of_too_long⟩
  refine ⟨loadedState cap img, load_of_fits h, readReg_loadedState cap img, rfl, rfl, rfl, length_loadedCells img,
    rfl, fun a ha => ?_, fun a ha => ?_, fun hfits => ?_, fun c hc hover => ?_⟩
  · exact (read_loadedCells img a).trans (if_pos ha)
  · exact (read_loadedCells img a).trans (if_neg (Nat.not_lt_of_le ha))
  · rw [← length_loadedCells] at hfits
    exact startRun_eq_running_iff.2 hfits
  · subst hc
    rw [← length_loadedCells] at hover
    exact ⟨_, _, _, startRun_of_over_capacity hover⟩

/-- The status of a fault shows its reason code and its record (R201, R257). -/
theorem State.status_of_faulted {s : State} {r : FaultRecord} (h : s.run = .faulted r) :
    s.status = ⟨2, none, some r.code, some r⟩ := by
  simp only [State.status, h, RunState.code]

/-- Settles O56: the status by run state; the four reasons differ in their code only. -/
theorem statusShowsRun : Obligations.StatusShowsRun := by
  refine fun s => ⟨fun h => ?_, fun v h => ?_, fun _ _ _ => State.status_of_faulted, fun _ => State.status_of_faulted,
    fun _ _ _ => State.status_of_faulted, fun _ _ _ => State.status_of_faulted⟩
  · simp only [State.status, h, RunState.code]
  · simp only [State.status, h, RunState.code]

end Sys2Proof.Machine

/-! ## Words of the test vectors -/

namespace Sys2Proof

/-- Settles O11: the decoder computes each of the eleven words. -/
theorem tableWordsDecode : Obligations.TableWordsDecode := by
  unfold Obligations.TableWordsDecode
  decide

end Sys2Proof
